-- ==== Sys2Proof/Word.lean ====
section
/-! DEFINITION. The two word types of the messages: a 32-bit word (30_encoding.md rules R71, R74) and a payload byte
(00_scope.md rule R7, `BYTEW`). -/

namespace Sys2Proof

/-- One word of a descriptor or of an interval request (30_encoding.md rule R70). -/
abbrev Word := BitVec 32

/-- One payload byte (20_memory.md rule R50). -/
abbrev Byte := BitVec 8

end Sys2Proof
end

