-- ==== Sys2Proof/Config.lean ====
section
/-! DEFINITION. The implementation parameters of 00_scope.md rule R7 and 92_eei_decisions.md section 2, collected in one
record, `Config`. Every type and operation of the machine takes it as an argument; `Config.default` is the rule's default
of every parameter, at which the fixed names of the host's interface stand (notes/assumptions/1.md, 2.md). -/

namespace Sys2Proof

/-- `DUTYW`: bits of the duty register (R7, fixed at 8). -/
abbrev Config.DUTYW : Nat := 8

/-- `DUTY_MAX`: the largest duty accepted (R7, fixed at 100). -/
def Config.dutyMax : BitVec Config.DUTYW := 100#8

/-- The parameters that R7 leaves open to a platform, with the constraints it puts on them. -/
structure Config where
  /-- `DW`: bits of each of the six duration registers -/
  DW : Nat
  /-- `FW`: bits of the frequency register -/
  FW : Nat
  /-- `NW`: bits of `NBYTES`; the payload index space is `0 .. 2^NW - 1` (20_memory.md R59) -/
  NW : Nat
  /-- `RW`: bits of `REPEATS` and of `ITER` -/
  RW : Nat
  /-- `freq_valid`: the frequency is in a physically valid range -/
  freqValid : BitVec FW → Bool
  /-- `dur_valid`, on `HM HS BM OS ZS GAP` in that order: the timing values are valid -/
  durValid : BitVec DW → BitVec DW → BitVec DW → BitVec DW → BitVec DW → BitVec DW → Bool
  DW_min : 17 ≤ DW
  FW_min : 16 ≤ FW
  NW_min : 1 ≤ NW
  RW_min : 1 ≤ RW
  freqValid_zero : freqValid 0#FW = false

/-- The defaults of R7: widths 32, 32, 16 and 16, every nonzero frequency valid, every choice of durations valid. -/
abbrev Config.default : Config where
  DW := 32
  FW := 32
  NW := 16
  RW := 16
  freqValid := fun f => f != 0#32
  durValid := fun _ _ _ _ _ _ => true
  DW_min := by decide
  FW_min := by decide
  NW_min := by decide
  RW_min := by decide
  freqValid_zero := by decide

end Sys2Proof
end

