-- ==== Sys2Proof/Machine/Formats.lean ====
section
/-! DEFINITION. The messages and code sets of 30_encoding.md: the command descriptor (R71, R85), the phase codes (R73), the
interval request (R74), the driver's answer (R75) and the response to the host (R76). The records take the configuration
as an argument and have each field at its register's width (R85); the words `CmdMsg` and `DrvMsg` and their bit layouts in
Sys2Proof/Decode.lean are those the spec gives at the default widths. -/

namespace Sys2Proof

/-- The nine words of a command descriptor as sent at the default widths, `W0` first (R71). -/
structure CmdMsg where
  w0 : Word
  w1 : Word
  w2 : Word
  w3 : Word
  w4 : Word
  w5 : Word
  w6 : Word
  w7 : Word
  w8 : Word
  deriving DecidableEq, Repr

/-- The three words of an interval request as sent at the default widths, `Q0` first (R74). -/
structure DrvMsg where
  q0 : Word
  q1 : Word
  q2 : Word
  deriving DecidableEq, Repr

/-- The eleven operand registers, numbered 0 to 10 in this order (10_state.md R20). -/
structure OperandRegs (cfg : Config) where
  /-- 0: header-mark duration, microseconds -/
  hm : BitVec cfg.DW
  /-- 1: header-space duration, microseconds -/
  hs : BitVec cfg.DW
  /-- 2: bit-mark duration, microseconds -/
  bm : BitVec cfg.DW
  /-- 3: one-space duration, microseconds -/
  os : BitVec cfg.DW
  /-- 4: zero-space duration, microseconds -/
  zs : BitVec cfg.DW
  /-- 5: trailing-gap duration, microseconds -/
  gap : BitVec cfg.DW
  /-- 6: carrier frequency, hertz -/
  freq : BitVec cfg.FW
  /-- 7: carrier duty cycle, percent -/
  duty : BitVec Config.DUTYW
  /-- 8: number of leading payload bytes consumed -/
  nbytes : BitVec cfg.NW
  /-- 9: repeat count; there are `REPEATS + 1` iterations -/
  repeats : BitVec cfg.RW
  /-- 10: bit order within a byte, 0 MSB first, 1 LSB first -/
  order : BitVec 1
  deriving DecidableEq, Repr

/-- The descriptor as a record (R85): the operation code, the reserved field as a separate value, and one field for each
operand register, at that register's width. -/
structure Descriptor (cfg : Config) where
  op : BitVec 8
  reserved : BitVec 15
  operands : OperandRegs cfg
  deriving DecidableEq, Repr

/-- The sequencer's phase: six values, codes 6 and 7 do not exist (10_state.md R25, 30_encoding.md R78). -/
inductive Phase where
  | idle
  | headerMark
  | headerSpace
  | bitMark
  | bitSpace
  | gap
  deriving DecidableEq, Repr

/-- The 3-bit code of a phase (R25, R73). -/
def Phase.code : Phase → BitVec 3
  | .idle => 0#3
  | .headerMark => 1#3
  | .headerSpace => 2#3
  | .bitMark => 3#3
  | .bitSpace => 4#3
  | .gap => 5#3

/-- The phase of a code; 6 and 7 have none (R73). -/
def Phase.ofCode (c : BitVec 3) : Option Phase :=
  match c.toNat with
  | 0 => some .idle
  | 1 => some .headerMark
  | 2 => some .headerSpace
  | 3 => some .bitMark
  | 4 => some .bitSpace
  | 5 => some .gap
  | _ => none

/-- An interval request as a value (R74): `MARK(d, f, c)` or `SPACE(d)`. -/
inductive Request (cfg : Config) where
  | mark (dur : BitVec cfg.DW) (freq : BitVec cfg.FW) (duty : BitVec Config.DUTYW)
  | space (dur : BitVec cfg.DW)
  deriving DecidableEq, Repr

/-- The carrier driver's answer to a request (R75). -/
inductive Answer where
  | ok
  | fault
  deriving DecidableEq, Repr

/-- The bit that carries an answer: 0 `OK`, 1 `FAULT` (R75). -/
def Answer.bit : Answer → BitVec 1
  | .ok => 0#1
  | .fault => 1#1

/-- The answer a bit carries (R75). -/
def Answer.ofBit (b : BitVec 1) : Answer := if b = 0#1 then .ok else .fault

/-- The outcome of a command, the value of `CAUSE` and of the response (60_exceptions.md R151); codes 6 and 7 are never
written, so they do not exist here (93_implementation_defined.md U9). -/
inductive Cause where
  | none
  | cfgFreq
  | cfgDuty
  | cfgTiming
  | drvFault
  | cmdIllegal
  deriving DecidableEq, Repr

/-- The 3-bit code of a cause (R151); the response on the command channel is this code (R76). -/
def Cause.code : Cause → BitVec 3
  | .none => 0#3
  | .cfgFreq => 1#3
  | .cfgDuty => 2#3
  | .cfgTiming => 3#3
  | .drvFault => 4#3
  | .cmdIllegal => 5#3

/-- A launch of the host: the descriptor it sends on the command channel, legal or not, as the record of R85, and the
payload buffer it binds to the payload read port for that command (00_scope.md, glossary; 20_memory.md R50). -/
structure Launch (cfg : Config) where
  desc : Descriptor cfg
  payload : List Byte
  deriving DecidableEq, Repr

/-- A message that selects an operation, one constructor for each of the three formats of R70, at the default widths. -/
inductive Message where
  /-- format `CMD`, nine words, host to encoder -/
  | cmd (m : CmdMsg)
  /-- format `PHASE`, the code in the sequencer's own `PHASE` register -/
  | phase (c : BitVec 3)
  /-- format `DRVREQ`, three words, encoder to carrier driver -/
  | drv (m : DrvMsg)
  deriving DecidableEq, Repr

/-- Why a message selects no operation (R78). -/
inductive DecodeError where
  /-- `CMD`: the operation code is not `0x01` -/
  | reservedOp (op : BitVec 8)
  /-- `CMD`: `W0[23:9]` is not zero -/
  | reservedField (v : BitVec 15)
  /-- `PHASE`: code 0, no operation is selected -/
  | idleCode
  /-- `PHASE`: code 6 or 7 -/
  | reservedCode (c : BitVec 3)
  /-- `DRVREQ`: neither of the two patterns the encoder produces -/
  | otherRequest
  deriving DecidableEq, Repr

end Sys2Proof
end

