-- ==== Sys2Proof/Syntax.lean ====
section
/-! DEFINITION. The operations, one constructor for each row of spec/opcode_table.json (00_scope.md rule R4: one host
command, five sequencer phase operations, two carrier-driver primitives), with operands of the default widths, the widths
at which the spec gives the operations an encoding (30_encoding.md R71, R74). -/

namespace Sys2Proof

/-- The eight operations of R4, in the table's order. -/
inductive Instr where
  /-- `TRANSMIT`, with its descriptor (40_transmit_command.md R102) -/
  | transmit (d : Descriptor Config.default)
  /-- `HEADER_MARK` (41_sequencer_phases.md R116) -/
  | headerMark
  /-- `HEADER_SPACE` (R117) -/
  | headerSpace
  /-- `BIT_MARK` (R118) -/
  | bitMark
  /-- `BIT_SPACE` (R119) -/
  | bitSpace
  /-- `GAP` (R120) -/
  | gap
  /-- `MARK(d, f, c)` (42_carrier_primitives.md R141) -/
  | mark (dur : BitVec Config.default.DW) (freq : BitVec Config.default.FW) (duty : BitVec Config.DUTYW)
  /-- `SPACE(d)` (R142) -/
  | space (dur : BitVec Config.default.DW)
  deriving DecidableEq, Repr

end Sys2Proof
end

