-- ==== Sys2Proof/WellFormed.lean ====
section
/-! DEFINITION. When a term of `Instr` stands for an encoded operation: a `TRANSMIT` has the one operation code and a zero
reserved field (30_encoding.md rules R77, R78); every other operation admits every value of its operands. -/

namespace Sys2Proof

/-- The operation code of `TRANSMIT` (R71). -/
def opTransmit : BitVec 8 := 0x01#8

/-- Every field is one the encoding admits (R77, R78). -/
def Instr.wellFormed : Instr → Bool
  | .transmit d => d.op == opTransmit && d.reserved == 0#15
  | .headerMark => true
  | .headerSpace => true
  | .bitMark => true
  | .bitSpace => true
  | .gap => true
  | .mark _ _ _ => true
  | .space _ => true

end Sys2Proof
end

