-- ==== Sys2Proof/Decode.lean ====
section
/-! DEFINITION. The bit layouts of 30_encoding.md, which the spec gives at the default widths only (R85): reading a
descriptor's fields (R71), the decoder of the three formats (R77), rejecting by name (R78), the encoder, and the two helpers
that lay an opcode-table word out as a message. -/

namespace Sys2Proof

/-- The fields of a descriptor's words (R71), taken as they stand (R72). -/
def descriptorOf (m : CmdMsg) : Descriptor Config.default where
  op := m.w0.extractLsb' 24 8
  reserved := m.w0.extractLsb' 9 15
  operands :=
    { hm := m.w3, hs := m.w4, bm := m.w5, os := m.w6, zs := m.w7, gap := m.w8,
      freq := m.w2, duty := m.w0.extractLsb' 0 8,
      nbytes := m.w1.extractLsb' 0 16, repeats := m.w1.extractLsb' 16 16,
      order := m.w0.extractLsb' 8 1 }

/-- The words of a descriptor (R71). -/
def descriptorWords (d : Descriptor Config.default) : CmdMsg where
  w0 := d.op ++ d.reserved ++ d.operands.order ++ d.operands.duty
  w1 := d.operands.repeats ++ d.operands.nbytes
  w2 := d.operands.freq
  w3 := d.operands.hm
  w4 := d.operands.hs
  w5 := d.operands.bm
  w6 := d.operands.os
  w7 := d.operands.zs
  w8 := d.operands.gap

/-- The words of an interval request (R74, R141, R142). -/
def requestWords : Request Config.default → DrvMsg
  | .mark d f c => { q0 := 1#1 ++ 0#23 ++ c, q1 := d, q2 := f }
  | .space d => { q0 := 0#32, q1 := d, q2 := 0#32 }

/-- The words of a launch's descriptor as sent at the default widths (R71). -/
def Launch.words (l : Launch Config.default) : CmdMsg := descriptorWords l.desc

/-- The launch of words as sent at the default widths, with its buffer: every word is a field of the record. -/
def Launch.ofWords (m : CmdMsg) (payload : List Byte) : Launch Config.default where
  desc := descriptorOf m
  payload := payload

/-- Format `CMD`: `TRANSMIT` is the only operation code, and the reserved field is zero (R77, R78). -/
def decodeCmd (m : CmdMsg) : Except DecodeError Instr :=
  let d := descriptorOf m
  if d.op ≠ opTransmit then .error (.reservedOp d.op)
  else if d.reserved ≠ 0#15 then .error (.reservedField d.reserved)
  else .ok (.transmit d)

/-- Format `PHASE`: codes 1 to 5 select an operation (R73). -/
def decodePhase (c : BitVec 3) : Except DecodeError Instr :=
  match c.toNat with
  | 0 => .error .idleCode
  | 1 => .ok .headerMark
  | 2 => .ok .headerSpace
  | 3 => .ok .bitMark
  | 4 => .ok .bitSpace
  | 5 => .ok .gap
  | _ => .error (.reservedCode c)

/-- Format `DRVREQ`: the two patterns of R77; a `SPACE` carries zero in its `FREQ` word (R74; notes/assumptions/8.md). -/
def decodeDrv (m : DrvMsg) : Except DecodeError Instr :=
  if m.q0.extractLsb' 31 1 = 1#1 ∧ m.q0.extractLsb' 8 23 = 0#23 then
    .ok (.mark m.q1 m.q2 (m.q0.extractLsb' 0 8))
  else if m.q0 = 0#32 ∧ m.q2 = 0#32 then .ok (.space m.q1)
  else .error .otherRequest

/-- The operation a message selects (R70, R77). -/
def decode : Message → Except DecodeError Instr
  | .cmd m => decodeCmd m
  | .phase c => decodePhase c
  | .drv m => decodeDrv m

/-- The message of a well-formed operation, from the same formats (R71, R73, R74). -/
def encode : Instr → Message
  | .transmit d => .cmd (descriptorWords d)
  | .headerMark => .phase 1#3
  | .headerSpace => .phase 2#3
  | .bitMark => .phase 3#3
  | .bitSpace => .phase 4#3
  | .gap => .phase 5#3
  | .mark d f c => .drv (requestWords (.mark d f c))
  | .space d => .drv (requestWords (.space d))

/-- Word number `k` of an instruction whose bits are `w`, the first word in the low bits. -/
def tableWord (w k : Nat) : Word := BitVec.ofNat 32 (w >>> (32 * k))

/-- The nine words of format `CMD` from an instruction's bits. -/
def tableCmd (w : Nat) : CmdMsg where
  w0 := tableWord w 0
  w1 := tableWord w 1
  w2 := tableWord w 2
  w3 := tableWord w 3
  w4 := tableWord w 4
  w5 := tableWord w 5
  w6 := tableWord w 6
  w7 := tableWord w 7
  w8 := tableWord w 8

/-- The three words of format `DRVREQ` from an instruction's bits. -/
def tableDrv (w : Nat) : DrvMsg where
  q0 := tableWord w 0
  q1 := tableWord w 1
  q2 := tableWord w 2

/-- The channel an opcode-table word belongs to: fewer than 32 bits are a phase code (R73); 32 bits or more are a driver
request where they are one of its two patterns, and else a descriptor, so that no word is taken by two formats. -/
def tableMessage (nbits w : Nat) : Message :=
  if nbits < 32 then .phase (BitVec.ofNat 3 w)
  else match decodeDrv (tableDrv w) with
    | .ok _ => .drv (tableDrv w)
    | .error _ => .cmd (tableCmd w)

/-- The operation this decoder reads from an opcode-table word of `nbits` bits; a code of more than three bits is none. -/
def decodeTableWord (nbits w : Nat) : Option Instr :=
  if nbits < 32 ∧ 8 ≤ w then none
  else match decode (tableMessage nbits w) with
    | .ok i => some i
    | .error _ => none

end Sys2Proof
end

