-- ==== Sys2Proof/Machine/State.lean ====
section
/-! DEFINITION. The whole state (10_state.md section 1), the reasons a step can stop, and the state after reset (R37).
`MachineState cfg` is the state of the machine on the platform `cfg`, every register at that platform's width (00_scope.md
R7); `State` is it at the default parameters, the type the host's interface names. The fields are grouped by the agent that
owns them: the encoder, the host, the carrier driver, and the model's own record. -/

namespace Sys2Proof.Machine

/-- The payload buffer bound to the read port (20_memory.md R50): the cells of indices `0 .. plen - 1`, in rising order. An
index with no cell has no value (R55), so no cell equals what an unlisted index reads as. -/
abbrev Memory := List Host.Cell

/-- Why a run ends in a fault. -/
inductive Fault where
  /-- Raised by the issue step of `BIT_SPACE` when the payload byte it reads lies at or beyond `plen`: the model fault of
  20_memory.md R55, no hardware cause code and no response. Safe: the spec gives such a read no value. -/
  | payloadUnderrun
  deriving DecidableEq, Repr

/-- Why the model has no such step. -/
inductive Refusal where
  /-- An operation that has no meaning in this model; no arm of `exec` answers it. Safe. -/
  | notModelled (mnemonic : String)
  /-- Answered by `TRANSMIT` while a call runs or the host waits: the step is not enabled (40_transmit_command.md R101). Safe. -/
  | transmitNotEnabled
  /-- Answered by a phase operation whose code is not in `PHASE`: it is not selected (30_encoding.md R73). Safe. -/
  | phaseNotSelected
  /-- Answered by `MARK` and `SPACE` when no such request of a running call is in flight (42_carrier_primitives.md R143). Safe. -/
  | requestNotInFlight
  /-- Answered by a step whose driver channel carries words that are no interval request, which no request of this model
  has (30_encoding.md R78). Safe. -/
  | unknownRequest
  /-- Answered by a step whose phase code selects no operation, which no phase of this model has (R78). Safe. -/
  | reservedPhaseCode
  deriving DecidableEq, Repr

/-- The machine on a platform: the encoder, the two agents at its boundaries, and the model's record of a run. -/
structure MachineState (cfg : Config) where
  /-- the eleven operand registers (10_state.md R20) -/
  ops : OperandRegs cfg
  /-- `PHASE` (R25) -/
  phase : Phase
  /-- `ITER`: the number of the current iteration (R26) -/
  iter : BitVec cfg.RW
  /-- `BITIDX`: the flat index of the current payload bit (R27) -/
  bitidx : BitVec (cfg.NW + 3)
  /-- `PEND`: a request is issued and not answered (R30) -/
  pend : Bool
  /-- `CAUSE`: the outcome of the most recent command (R31) -/
  cause : Cause
  /-- the payload buffer `P` bound to the read port; its length is `plen` (20_memory.md R50) -/
  payload : Memory
  /-- `HOSTWAIT`, the host's flag (R36) -/
  hostWait : Bool
  /-- the launches the host still has to send, first one first: the model's own field, the host's input -/
  hostQueue : List (Launch cfg)
  /-- the request in flight on the carrier-driver channel, held by the driver until it answers; its words at the default
  widths are `requestWords` of it (30_encoding.md R74) -/
  drvChan : Option (Request cfg)
  /-- the answers the driver still gives, first one first; where the list ends it answers no more: the model's own field,
  the driver's free choice (42_carrier_primitives.md R143, R145) -/
  drvAnswers : List Answer
  /-- `TRACE`: the requests issued since the most recent command, the model's record (00_scope.md R10) -/
  trace : List (Request cfg)
  /-- the responses the host has got, oldest first, the model's record (R10, R106) -/
  responses : List Cause
  deriving DecidableEq, Repr

/-- The machine at the default parameters of R7. -/
structure State extends MachineState Config.default where
  deriving DecidableEq, Repr

/-- What one operation or one step answers on a platform. -/
abbrev ResultOn (cfg : Config) := Host.Outcome (MachineState cfg) Fault Refusal

/-- What one operation or one step answers at the default parameters. -/
abbrev Result := Host.Outcome State Fault Refusal

/-- The answer of the default platform, on the fixed name of its state. -/
def Result.ofDefault : ResultOn Config.default → Result
  | .next m => .next ⟨m⟩
  | .fault e => .fault e
  | .refused e => .refused e

/-- The operand registers after reset. The spec gives them no value (R37); the model's zeros are notes/assumptions/3.md. -/
def OperandRegs.reset (cfg : Config) : OperandRegs cfg where
  hm := 0
  hs := 0
  bm := 0
  os := 0
  zs := 0
  gap := 0
  freq := 0
  duty := 0
  nbytes := 0
  repeats := 0
  order := 0

/-- The machine right after reset, on every platform (R37, 70_reset_and_hazards.md R180): `PHASE = IDLE`, `PEND = 0`,
`CAUSE = 0`, `TRACE` empty, `HOSTWAIT = 0`. The operand registers and the counters have no value in the spec
(notes/assumptions/3.md), and the two agents at the boundaries have nothing to send (notes/assumptions/4.md). -/
def MachineState.reset (cfg : Config) : MachineState cfg where
  ops := OperandRegs.reset cfg
  phase := .idle
  iter := 0
  bitidx := 0
  pend := false
  cause := .none
  payload := []
  hostWait := false
  hostQueue := []
  drvChan := none
  drvAnswers := []
  trace := []
  responses := []

/-- The machine right after reset at the default parameters. -/
def State.reset : State := ⟨MachineState.reset Config.default⟩

end Sys2Proof.Machine
end

