-- ==== Sys2Proof/Machine/Operands.lean ====
section
/-! DEFINITION. What the operations read: the numbered operand registers (10_state.md R20), the payload memory
(20_memory.md R50), the bit iterator (41_sequencer_phases.md R112) and the timing mux (R113). -/

namespace Sys2Proof.Machine

/-- Read of operand register number `i`, zero-extended to a number (00_scope.md R12, 10_state.md R20); there are eleven. -/
def readOperand {cfg : Config} (r : OperandRegs cfg) (i : Fin 11) : Nat :=
  match i.val with
  | 0 => r.hm.toNat
  | 1 => r.hs.toNat
  | 2 => r.bm.toNat
  | 3 => r.os.toNat
  | 4 => r.zs.toNat
  | 5 => r.gap.toNat
  | 6 => r.freq.toNat
  | 7 => r.duty.toNat
  | 8 => r.nbytes.toNat
  | 9 => r.repeats.toNat
  | _ => r.order.toNat

/-- `MemRead(a, 1)` (R12, 20_memory.md R57): the byte at index `a`, or no value where the buffer has no such byte (R55). -/
def Memory.read : Memory → Nat → Option Byte
  | [], _ => none
  | (k, b) :: m, a => if k = a then some b else Memory.read m a

/-- The cells of a buffer whose first byte has index `k`. -/
def Memory.cellsFrom : Nat → List Byte → Memory
  | _, [] => []
  | k, b :: bs => (k, b) :: Memory.cellsFrom (k + 1) bs

/-- Binding a buffer to the read port (R50, R59): index 0 is its first byte, and the port reaches `2^NW` indices. -/
def Memory.ofBytes (cfg : Config) (bs : List Byte) : Memory :=
  Memory.cellsFrom 0 (bs.take (2 ^ cfg.NW))

/-- The canonical form: the cells are those of indices `0 .. plen - 1` in rising order, all within the port's index space. -/
def Memory.wf (cfg : Config) (m : Memory) : Bool :=
  decide (m.map (fun c => c.1) = List.range m.length) && decide (m.length ≤ 2 ^ cfg.NW)

/-- `plen`, the buffer's actual length (R50). -/
def MachineState.plen {cfg : Config} (s : MachineState cfg) : Nat := s.payload.length

/-- `TOTAL = {NBYTES, 000}` on `NW + 3` bits (41_sequencer_phases.md R111). -/
def totalBits {cfg : Config} (r : OperandRegs cfg) : BitVec (cfg.NW + 3) := r.nbytes ++ 0#3

/-- `i div 8`, the high `NW` bits of a flat bit index (R112, R133). -/
def byteIndex {nw : Nat} (i : BitVec (nw + 3)) : BitVec nw := i.extractLsb' 3 nw

/-- `i mod 8`, the low 3 bits of a flat bit index (R112, R133). -/
def bitInByte {nw : Nat} (i : BitVec (nw + 3)) : BitVec 3 := i.extractLsb' 0 3

/-- The bit of a byte that is emitted in position `k`: bit `7 - k` with `ORDER = 0`, bit `k` with `ORDER = 1` (R112). -/
def selectBit (order : BitVec 1) (b : Byte) (k : BitVec 3) : Bool :=
  if order = 0#1 then b.getLsbD (7#3 - k).toNat else b.getLsbD k.toNat

/-- `bit(i)` (R112): no value where the payload byte has none (20_memory.md R55). -/
def payloadBit {nw : Nat} (order : BitVec 1) (m : Memory) (i : BitVec (nw + 3)) : Option Bool :=
  match Memory.read m (byteIndex i).toNat with
  | none => none
  | some b => some (selectBit order b (bitInByte i))

/-- `req(HEADER_MARK)` (R113). -/
def headerMarkReq {cfg : Config} (r : OperandRegs cfg) : Request cfg := .mark r.hm r.freq r.duty

/-- `req(HEADER_SPACE)` (R113). -/
def headerSpaceReq {cfg : Config} (r : OperandRegs cfg) : Request cfg := .space r.hs

/-- `req(BIT_MARK)` (R113): the mark of a bit does not depend on the bit. -/
def bitMarkReq {cfg : Config} (r : OperandRegs cfg) : Request cfg := .mark r.bm r.freq r.duty

/-- `req(BIT_SPACE)` for a bit of value `b` (R113). -/
def bitSpaceReq {cfg : Config} (r : OperandRegs cfg) (b : Bool) : Request cfg := .space (if b then r.os else r.zs)

/-- `req(GAP)` (R113). -/
def gapReq {cfg : Config} (r : OperandRegs cfg) : Request cfg := .space r.gap

/-- `req(BIT_SPACE)` at the current bit: no value where the payload byte has none (R113, 20_memory.md R55). -/
def currentBitSpaceReq {cfg : Config} (s : MachineState cfg) : Option (Request cfg) :=
  match payloadBit s.ops.order s.payload s.bitidx with
  | none => none
  | some b => some (bitSpaceReq s.ops b)

/-- The timing mux: the request of the current position, none in `IDLE` (R113). -/
def timingMux {cfg : Config} (s : MachineState cfg) : Option (Request cfg) :=
  match s.phase with
  | .idle => none
  | .headerMark => some (headerMarkReq s.ops)
  | .headerSpace => some (headerSpaceReq s.ops)
  | .bitMark => some (bitMarkReq s.ops)
  | .bitSpace => currentBitSpaceReq s
  | .gap => some (gapReq s.ops)

end Sys2Proof.Machine
end

