-- ==== Sys2Proof/Machine/Flags.lean ====
section
/-! DEFINITION. The status flags and the status view (10_state.md R29, R30, R32). -/

namespace Sys2Proof.Machine

/-- `BUSY = (PHASE != IDLE)`, not a stored bit (R29). -/
def MachineState.busy {cfg : Config} (s : MachineState cfg) : Bool := decide (s.phase ≠ .idle)

/-- The 8-bit read-only `STATUS` view: `BUSY`, `PEND`, `PHASE`, `CAUSE` from bit 7 down (R32). -/
def MachineState.status {cfg : Config} (s : MachineState cfg) : BitVec 8 :=
  BitVec.ofBool s.busy ++ BitVec.ofBool s.pend ++ s.phase.code ++ s.cause.code

end Sys2Proof.Machine
end

