-- ==== Sys2Proof/Machine/Ops.lean ====
section
/-! DEFINITION. The shared operations: the response (40_transmit_command.md R106), raising a fault (60_exceptions.md R156),
issuing a request (42_carrier_primitives.md R140), latching and checking a configuration (R102, R103), starting a call (R104),
and the completion step (41_sequencer_phases.md R115), each for every platform `cfg`. A fault has no return (60_exceptions.md R162). -/

namespace Sys2Proof.Machine

/-- `respond(c)`: the host gets the response and its wait ends (R106). -/
def respond {cfg : Config} (c : Cause) (s : MachineState cfg) : MachineState cfg :=
  { s with hostWait := false, responses := s.responses ++ [c] }

/-- `raise F` with code `c` (60_exceptions.md R156): the command is aborted and the host gets the code; nothing else. -/
def raise {cfg : Config} (c : Cause) (s : MachineState cfg) : MachineState cfg :=
  respond c { s with cause := c, phase := .idle, pend := false }

/-- `issue(q)` (R12, R140): record the request, hand it to the carrier driver, set `PEND`. -/
def issue {cfg : Config} (q : Request cfg) (s : MachineState cfg) : MachineState cfg :=
  { s with trace := s.trace ++ [q], drvChan := some q, pend := true }

/-- The history of the most recent command starts empty, at the head of every `TRANSMIT` step (00_scope.md R10). -/
def clearTrace {cfg : Config} (s : MachineState cfg) : MachineState cfg := { s with trace := [] }

/-- All eleven operand registers are written together from the descriptor (R102). -/
def latch {cfg : Config} (d : Descriptor cfg) (s : MachineState cfg) : MachineState cfg :=
  { s with ops := d.operands }

/-- The configuration check: the first check that fails, in the order of R103 (60_exceptions.md R159). -/
def configFault (cfg : Config) (r : OperandRegs cfg) : Option Cause :=
  if cfg.freqValid r.freq = false then some .cfgFreq
  else if Config.dutyMax < r.duty then some .cfgDuty
  else if cfg.durValid r.hm r.hs r.bm r.os r.zs r.gap = false then some .cfgTiming
  else none

/-- The start of a call (R104); no response is sent now. -/
def startCall {cfg : Config} (s : MachineState cfg) : MachineState cfg :=
  { s with phase := .headerMark, iter := 0, bitidx := 0, pend := false, cause := .none,
           trace := [], hostWait := true }

/-- The descriptor's operation code and reserved field are those of `TRANSMIT` (R102, R107). -/
def legalDescriptor {cfg : Config} (d : Descriptor cfg) : Bool := d.op == opTransmit && d.reserved == 0#15

/-- The configuration check on the latched values, and what follows from it (R103). -/
def checkAndStart (cfg : Config) (s : MachineState cfg) : MachineState cfg :=
  match configFault cfg s.ops with
  | some c => raise c s
  | none => startCall s

/-- The `TRANSMIT` step where it is enabled, for a platform with the validity predicates `cfg` (R102, R103, R107). -/
def acceptDescriptor (cfg : Config) (d : Descriptor cfg) (s : MachineState cfg) : MachineState cfg :=
  if legalDescriptor d then checkAndStart cfg (latch d (clearTrace s))
  else raise .cmdIllegal (clearTrace s)

/-- `TRANSMIT(desc)` for a platform with the validity predicates `cfg`: enabled if and only if `PHASE = IDLE` and
`HOSTWAIT = 0` (R101). -/
def transmit (cfg : Config) (d : Descriptor cfg) (s : MachineState cfg) : ResultOn cfg :=
  if s.phase = .idle ∧ s.hostWait = false then .next (acceptDescriptor cfg d s)
  else .refused .transmitNotEnabled

/-- The completion step (41_sequencer_phases.md R115) of a phase whose next position is `nxt`: on `OK` the sequencer moves
on, on `FAULT` the call is aborted (60_exceptions.md R157), and while the driver has not answered nothing changes (R145). -/
def complete {cfg : Config} (nxt : MachineState cfg → MachineState cfg) (s : MachineState cfg) : MachineState cfg :=
  match s.drvAnswers with
  | [] => s
  | .ok :: rest => nxt { s with drvAnswers := rest, drvChan := none, pend := false }
  | .fault :: rest => raise .drvFault { s with drvAnswers := rest, drvChan := none, pend := false }

/-- A phase operation (R114, R115): selected by the code in `PHASE`; with `PEND = 0` its issue step, which has no request
where the payload byte has no value (20_memory.md R55); with `PEND = 1` its completion step. -/
def phaseOperation {cfg : Config} (p : Phase) (req : Option (Request cfg)) (nxt : MachineState cfg → MachineState cfg)
    (s : MachineState cfg) : ResultOn cfg :=
  if s.phase = p then
    if s.pend then .next (complete nxt s)
    else match req with
      | some q => .next (issue q s)
      | none => .fault .payloadUnderrun
  else .refused .phaseNotSelected

end Sys2Proof.Machine
end

