-- ==== Sys2Proof/Machine/Sequencer.lean ====
section
/-! DEFINITION. The five phase operations of the sequencer (41_sequencer_phases.md R116 to R120): the next position of
each, the operation for every platform, and the operation at the default parameters. -/

namespace Sys2Proof.Machine

/-- After a completed `HEADER_MARK` (R116). -/
def headerMarkNext {cfg : Config} (s : MachineState cfg) : MachineState cfg := { s with phase := .headerSpace }

/-- After a completed `HEADER_SPACE`: no bits, no bit phases (R117, R125). -/
def headerSpaceNext {cfg : Config} (s : MachineState cfg) : MachineState cfg :=
  if s.ops.nbytes = 0 then { s with phase := .gap } else { s with phase := .bitMark }

/-- After a completed `BIT_MARK` (R118). -/
def bitMarkNext {cfg : Config} (s : MachineState cfg) : MachineState cfg := { s with phase := .bitSpace }

/-- After a completed `BIT_SPACE`: the next bit, or the gap with `BITIDX` kept (R119). -/
def bitSpaceNext {cfg : Config} (s : MachineState cfg) : MachineState cfg :=
  if s.bitidx + 1 < totalBits s.ops then { s with bitidx := s.bitidx + 1, phase := .bitMark }
  else { s with phase := .gap }

/-- After a completed `GAP`: the next iteration (R120, R121), or the end of the call with its response (R122). -/
def gapNext {cfg : Config} (s : MachineState cfg) : MachineState cfg :=
  if s.iter < s.ops.repeats then { s with iter := s.iter + 1, bitidx := 0, phase := .headerMark }
  else respond .none { s with phase := .idle }

/-- `HEADER_MARK` (R116). -/
def headerMarkOp {cfg : Config} (s : MachineState cfg) : ResultOn cfg :=
  phaseOperation .headerMark (some (headerMarkReq s.ops)) headerMarkNext s

/-- `HEADER_SPACE` (R117). -/
def headerSpaceOp {cfg : Config} (s : MachineState cfg) : ResultOn cfg :=
  phaseOperation .headerSpace (some (headerSpaceReq s.ops)) headerSpaceNext s

/-- `BIT_MARK` (R118): the payload is not read. -/
def bitMarkOp {cfg : Config} (s : MachineState cfg) : ResultOn cfg :=
  phaseOperation .bitMark (some (bitMarkReq s.ops)) bitMarkNext s

/-- `BIT_SPACE` (R119): its issue step reads one payload byte. -/
def bitSpaceOp {cfg : Config} (s : MachineState cfg) : ResultOn cfg :=
  phaseOperation .bitSpace (currentBitSpaceReq s) bitSpaceNext s

/-- `GAP` (R120). -/
def gapOp {cfg : Config} (s : MachineState cfg) : ResultOn cfg :=
  phaseOperation .gap (some (gapReq s.ops)) gapNext s

/-- The operation that the code of a phase selects; `IDLE` selects none (30_encoding.md R73). -/
def phaseOp {cfg : Config} (p : Phase) (s : MachineState cfg) : ResultOn cfg :=
  match p with
  | .idle => .refused .phaseNotSelected
  | .headerMark => headerMarkOp s
  | .headerSpace => headerSpaceOp s
  | .bitMark => bitMarkOp s
  | .bitSpace => bitSpaceOp s
  | .gap => gapOp s

/-- The completion step of whichever phase is current (R115); `IDLE` has none. -/
def completeCurrent {cfg : Config} (s : MachineState cfg) : ResultOn cfg :=
  match s.phase with
  | .idle => .refused .requestNotInFlight
  | .headerMark => .next (complete headerMarkNext s)
  | .headerSpace => .next (complete headerSpaceNext s)
  | .bitMark => .next (complete bitMarkNext s)
  | .bitSpace => .next (complete bitSpaceNext s)
  | .gap => .next (complete gapNext s)

/-- `HEADER_MARK` (R116) at the default parameters. -/
def execHeaderMark (s : State) : Result := Result.ofDefault (headerMarkOp s.toMachineState)

/-- `HEADER_SPACE` (R117) at the default parameters. -/
def execHeaderSpace (s : State) : Result := Result.ofDefault (headerSpaceOp s.toMachineState)

/-- `BIT_MARK` (R118) at the default parameters. -/
def execBitMark (s : State) : Result := Result.ofDefault (bitMarkOp s.toMachineState)

/-- `BIT_SPACE` (R119) at the default parameters. -/
def execBitSpace (s : State) : Result := Result.ofDefault (bitSpaceOp s.toMachineState)

/-- `GAP` (R120) at the default parameters. -/
def execGap (s : State) : Result := Result.ofDefault (gapOp s.toMachineState)

end Sys2Proof.Machine
end

