-- ==== Sys2Proof/Machine/Driver.lean ====
section
/-! DEFINITION. The carrier-driver primitives (42_carrier_primitives.md). The driver's one step, as far as the encoder sees
it, is to answer the request in flight, and that step is the completion step of the phase that issued it (R143). The
phase operation hands the request over (R140); what the output line does is the driver's own matter (R146). -/

namespace Sys2Proof.Machine

/-- The carrier driver carries out the request in flight and answers it (R143), or has not answered yet (R145). -/
def carryOut {cfg : Config} (q : Request cfg) (s : MachineState cfg) : ResultOn cfg :=
  if s.pend = true ∧ s.drvChan = some q then completeCurrent s
  else .refused .requestNotInFlight

/-- `MARK(d, f, c)` (R141). -/
def markOp {cfg : Config} (d : BitVec cfg.DW) (f : BitVec cfg.FW) (c : BitVec Config.DUTYW) (s : MachineState cfg) :
    ResultOn cfg := carryOut (.mark d f c) s

/-- `SPACE(d)` (R142). -/
def spaceOp {cfg : Config} (d : BitVec cfg.DW) (s : MachineState cfg) : ResultOn cfg := carryOut (.space d) s

/-- `MARK(d, f, c)` (R141) at the default parameters. -/
def execMark (d : BitVec Config.default.DW) (f : BitVec Config.default.FW) (c : BitVec Config.DUTYW) (s : State) :
    Result := Result.ofDefault (markOp d f c s.toMachineState)

/-- `SPACE(d)` (R142) at the default parameters. -/
def execSpace (d : BitVec Config.default.DW) (s : State) : Result :=
  Result.ofDefault (spaceOp d s.toMachineState)

end Sys2Proof.Machine
end

