-- ==== Sys2Proof/Machine/Transmit.lean ====
section
/-! DEFINITION. The host command (40_transmit_command.md); for every platform it is `transmit` of Machine/Ops.lean. -/

namespace Sys2Proof.Machine

/-- `TRANSMIT` (R101 to R104, R107) at the default parameters (notes/assumptions/2.md). -/
def execTransmit (d : Descriptor Config.default) (s : State) : Result :=
  Result.ofDefault (transmit Config.default d s.toMachineState)

end Sys2Proof.Machine
end

