-- ==== Sys2Proof/Machine/Dispatch.lean ====
section
/-! DEFINITION. One arm for each operation, each a direct call of its meaning. -/

namespace Sys2Proof.Machine
open Sys2Proof

def exec (i : Instr) (s : State) : Host.Outcome State Fault Refusal :=
  match i with
  | .transmit d => Sys2Proof.Machine.execTransmit d s
  | .headerMark => Sys2Proof.Machine.execHeaderMark s
  | .headerSpace => Sys2Proof.Machine.execHeaderSpace s
  | .bitMark => Sys2Proof.Machine.execBitMark s
  | .bitSpace => Sys2Proof.Machine.execBitSpace s
  | .gap => Sys2Proof.Machine.execGap s
  | .mark d f c => Sys2Proof.Machine.execMark d f c s
  | .space d => Sys2Proof.Machine.execSpace d s

end Sys2Proof.Machine
end

