-- ==== Sys2Proof/Machine/Fetch.lean ====
section
/-! DEFINITION. Whose step it is, and where an opcode-table word is placed. No two agents have an enabled step at once: the
host's is enabled only in `IDLE`, the encoder's issue step only with a phase and `PEND = 0`, the driver's only with
`PEND = 1` (40_transmit_command.md R101, 41_sequencer_phases.md R114, R115, R134). -/

namespace Sys2Proof.Machine

/-- The agent that has the next step, with what selects its operation. -/
inductive Turn (cfg : Config) where
  /-- the carrier driver, with the request in flight -/
  | driver (q : Request cfg)
  /-- the sequencer, with the phase whose code is in `PHASE` -/
  | sequencer (p : Phase)
  /-- the host, with the launch it sends and those it sends later -/
  | host (l : Launch cfg) (rest : List (Launch cfg))
  /-- nobody: nothing happens -/
  | nobody
  deriving DecidableEq, Repr

/-- Whose step it is (R101, R114, R115). -/
def turn {cfg : Config} (s : MachineState cfg) : Turn cfg :=
  if s.pend then
    match s.drvChan with
    | some q => .driver q
    | none => .nobody
  else if s.phase = .idle then
    if s.hostWait then .nobody
    else match s.hostQueue with
      | [] => .nobody
      | l :: rest => .host l rest
  else .sequencer s.phase

/-- The host binds the launch's buffer to the payload port and sends its descriptor (20_memory.md R50, 70_reset_and_hazards.md
R183); the launch is then no longer to be sent. -/
def hostSends {cfg : Config} (l : Launch cfg) (rest : List (Launch cfg)) (s : MachineState cfg) : MachineState cfg :=
  { s with payload := Memory.ofBytes cfg l.payload, hostQueue := rest }

/-- The driver gives at least one more answer: where it gave none, one `OK`. -/
def ensureAnswer : List Answer → List Answer
  | [] => [.ok]
  | a :: rest => a :: rest

/-- The payload, or, where it has no byte for bit `i`, a buffer of zero bytes that has one. -/
def ensureByte (cfg : Config) (i : BitVec (cfg.NW + 3)) (m : Memory) : Memory :=
  match Memory.read m (byteIndex i).toNat with
  | some _ => m
  | none => Memory.ofBytes cfg (List.replicate ((byteIndex i).toNat + 1) 0#8)

/-- The request whose words a driver message is, for a message that `decodeDrv` reads. -/
def requestOf (m : DrvMsg) : Request Config.default :=
  if m.q0.extractLsb' 31 1 = 1#1 then .mark m.q1 m.q2 (m.q0.extractLsb' 0 8) else .space m.q1

/-- The phase in which `placeTableWord` places a request: one that issues such a request. -/
def requestPhase : Request Config.default → Phase
  | .mark _ _ _ => .headerMark
  | .space _ => .headerSpace

/-- `s` with an instruction's bits where the next step takes its operation from (notes/assumptions/6.md): the phase code in
`PHASE`, a driver request on the carrier-driver channel with an answer to come, any other words at the head of the
host's launches. -/
def placeTableWord (s : State) (nbits w : Nat) : State :=
  match tableMessage nbits w with
  | .phase c =>
    match Phase.ofCode c with
    | some .bitSpace =>
      { s with phase := .bitSpace, pend := false, payload := ensureByte Config.default s.bitidx s.payload }
    | some p => { s with phase := p, pend := false }
    | none => s
  | .drv m =>
    { s with phase := requestPhase (requestOf m), pend := true, drvChan := some (requestOf m),
             drvAnswers := ensureAnswer s.drvAnswers }
  | .cmd m =>
    { s with phase := .idle, pend := false, hostWait := false,
             hostQueue := Launch.ofWords m (s.payload.map (fun c => c.2)) :: s.hostQueue }

end Sys2Proof.Machine
end

