-- ==== Sys2Proof/Machine/Step.lean ====
section
/-! DEFINITION. One step of the machine at the default parameters: one message on one channel (00_scope.md R9). The words of
the message (30_encoding.md R71, R73, R74) are decoded, and the operation they select runs. -/

namespace Sys2Proof.Machine

/-- One step of the agent whose turn it is. A descriptor is handed to `TRANSMIT` whole, legal or not: the operation itself
answers an illegal one with `CMD_ILLEGAL` (40_transmit_command.md R102, R107). Where nobody has a step nothing happens:
after reset the encoder does nothing until a command comes (70_reset_and_hazards.md R182). -/
def step (s : State) : Host.Outcome State Fault Refusal :=
  match turn s.toMachineState with
  | .nobody => .next s
  | .host l rest => exec (.transmit (descriptorOf l.words)) ⟨hostSends l rest s.toMachineState⟩
  | .sequencer p =>
    match decode (.phase p.code) with
    | .ok i => exec i s
    | .error _ => .refused .reservedPhaseCode
  | .driver q =>
    match decode (.drv (requestWords q)) with
    | .ok i => exec i s
    | .error _ => .refused .unknownRequest

/-- `s` with the instruction of an opcode-table word where the next step takes its operation from. -/
def State.withFetchWord (s : State) (nbits w : Nat) : State := placeTableWord s nbits w

end Sys2Proof.Machine
end

