-- ==== Sys2Proof/Machine/Train.lean ====
section
/-! DEFINITION. The pulse train of a call in closed form and what is said of it (41_sequencer_phases.md R126 to R131), and
its image as pairs (00_scope.md R10). It is written from those rules alone, byte by byte and not by the sequencer's
position, so that a statement can compare the machine's trace with it. No step of the machine uses it. -/

namespace Sys2Proof.Machine

/-- The eight bits of a payload byte in order of emission: bit 7 first with `ORDER = 0`, bit 0 first with `ORDER = 1`
(20_memory.md R53, R54). -/
def byteBits (order : BitVec 1) (b : Byte) : List Bool :=
  if order = 0#1 then
    [b.getLsbD 7, b.getLsbD 6, b.getLsbD 5, b.getLsbD 4, b.getLsbD 3, b.getLsbD 2, b.getLsbD 1, b.getLsbD 0]
  else
    [b.getLsbD 0, b.getLsbD 1, b.getLsbD 2, b.getLsbD 3, b.getLsbD 4, b.getLsbD 5, b.getLsbD 6, b.getLsbD 7]

/-- The leading payload bytes a command consumes: `NBYTES` of them where the buffer is long enough (20_memory.md R52). -/
def consumedBytes {cfg : Config} (r : OperandRegs cfg) (m : Memory) : List Byte :=
  (m.take r.nbytes.toNat).map (fun c => c.2)

/-- The flat bit sequence of a command (R112, R126). -/
def commandBits {cfg : Config} (r : OperandRegs cfg) (m : Memory) : List Bool :=
  (consumedBytes r m).flatMap (byteBits r.order)

/-- `bitpair(i)` for a bit of value `b` (R126). -/
def bitPair {cfg : Config} (r : OperandRegs cfg) (b : Bool) : List (Request cfg) :=
  [.mark r.bm r.freq r.duty, .space (if b = true then r.os else r.zs)]

/-- `iteration` (R126). -/
def iteration {cfg : Config} (r : OperandRegs cfg) (m : Memory) : List (Request cfg) :=
  [.mark r.hm r.freq r.duty, .space r.hs] ++ (commandBits r m).flatMap (bitPair r) ++ [.space r.gap]

/-- `train(desc, P)`: `REPEATS + 1` copies of one iteration (R126, R128). -/
def train {cfg : Config} (r : OperandRegs cfg) (m : Memory) : List (Request cfg) :=
  (List.replicate (r.repeats.toNat + 1) (iteration r m)).flatten

/-- The duration a request carries, in microseconds (R13, R74). -/
def requestDuration {cfg : Config} : Request cfg → BitVec cfg.DW
  | .mark d _ _ => d
  | .space d => d

/-- The interval is modulated: `KIND` (R74). -/
def requestModulated {cfg : Config} : Request cfg → Bool
  | .mark _ _ _ => true
  | .space _ => false

/-- `pair`: the source's (duration, modulated) pair of a request (00_scope.md R10). -/
def requestPair {cfg : Config} (q : Request cfg) : BitVec cfg.DW × Bool := (requestDuration q, requestModulated q)

/-- The Pulse Train of a trace (R10). -/
def pulseTrain {cfg : Config} (l : List (Request cfg)) : List (BitVec cfg.DW × Bool) := l.map requestPair

/-- The sum of the durations of a list of requests, a natural number that nothing in the hardware holds (R129). -/
def totalDuration {cfg : Config} : List (Request cfg) → Nat
  | [] => 0
  | q :: l => (requestDuration q).toNat + totalDuration l

/-- One byte of eight bits in order of emission (R131). -/
def packByte (order : BitVec 1) (a b c d e f g h : Bool) : Byte :=
  if order = 0#1 then
    BitVec.ofBool a ++ BitVec.ofBool b ++ BitVec.ofBool c ++ BitVec.ofBool d ++
      BitVec.ofBool e ++ BitVec.ofBool f ++ BitVec.ofBool g ++ BitVec.ofBool h
  else
    BitVec.ofBool h ++ BitVec.ofBool g ++ BitVec.ofBool f ++ BitVec.ofBool e ++
      BitVec.ofBool d ++ BitVec.ofBool c ++ BitVec.ofBool b ++ BitVec.ofBool a

/-- Grouping bits by eight (R131). -/
def packBytes (order : BitVec 1) : List Bool → List Byte
  | a :: b :: c :: d :: e :: f :: g :: h :: rest => packByte order a b c d e f g h :: packBytes order rest
  | _ => []

/-- Each pair of a mark and a space of duration `d` as one bit, 1 if `d = OS` (R131). -/
def readPairs {cfg : Config} (os : BitVec cfg.DW) : List (Request cfg) → List Bool
  | _ :: q :: rest => (requestDuration q == os) :: readPairs os rest
  | _ => []

/-- The payload read back from one iteration of a train: without its first two requests and its last (R131). -/
def decodeIteration {cfg : Config} (r : OperandRegs cfg) (l : List (Request cfg)) : List Byte :=
  packBytes r.order (readPairs r.os (l.drop 2).dropLast)

end Sys2Proof.Machine
end

