-- ==== Sys2Proof/Machine/HostCall.lean ====
section
/-! DEFINITION. The host's call as the source writes it (30_encoding.md R81 to R84): the command as a function of its
arguments, the protocol adapter, and the written forms of a profile, a payload, a pulse train and a call. -/

namespace Sys2Proof.Machine

/-- The Timing Profile of a protocol module (00_scope.md R13), with the source's field names. -/
structure TimingProfile (cfg : Config) where
  headerMark : BitVec cfg.DW
  headerSpace : BitVec cfg.DW
  bitMark : BitVec cfg.DW
  oneSpace : BitVec cfg.DW
  zeroSpace : BitVec cfg.DW
  gap : BitVec cfg.DW
  freq : BitVec cfg.FW
  duty : BitVec Config.DUTYW
  deriving DecidableEq, Repr

/-- The fifth argument of a call (R81). -/
inductive BitOrder where
  | msb
  | lsb
  deriving DecidableEq, Repr

/-- The value of `ORDER` for a bit order (10_state.md R33). -/
def BitOrder.code : BitOrder → BitVec 1
  | .msb => 0#1
  | .lsb => 1#1

/-- `transmit(profile, payload, nbytes, repeats, order)` as a launch; without the fifth argument the order is `msb` (R81). -/
def transmitCall {cfg : Config} (p : TimingProfile cfg) (payload : List Byte) (nbytes : BitVec cfg.NW)
    (repeats : BitVec cfg.RW) (order : BitOrder := .msb) : Launch cfg where
  desc :=
    { op := opTransmit, reserved := 0#15,
      operands :=
        { hm := p.headerMark, hs := p.headerSpace, bm := p.bitMark, os := p.oneSpace, zs := p.zeroSpace,
          gap := p.gap, freq := p.freq, duty := p.duty, nbytes := nbytes, repeats := repeats,
          order := order.code } }
  payload := payload

/-- The adapter of a protocol module with its two constants: one `TRANSMIT` and nothing else (R84). -/
def sendProtocol {cfg : Config} (profile : TimingProfile cfg) (len : BitVec cfg.NW) (data : List Byte)
    (repeats : BitVec cfg.RW) : Launch cfg := transmitCall profile data len repeats

/-- A bit string, most significant bit first (R82). -/
def byteBitText (b : Byte) : String :=
  String.ofList ((byteBits 0#1 b).map (fun x => if x then '1' else '0'))

/-- One hexadecimal digit. -/
def hexDigitText (n : Nat) : String := String.singleton ((n % 16).digitChar.toUpper)

/-- A payload byte as `0x` and two hexadecimal digits (R82). -/
def byteText (b : Byte) : String := "0x" ++ hexDigitText (b.toNat / 16) ++ hexDigitText b.toNat

/-- A payload as a bracket list (R82). -/
def payloadText (bs : List Byte) : String := "[" ++ String.intercalate ", " (bs.map byteText) ++ "]"

/-- A `name=value` pair with a decimal value (R82). -/
def pairText (name : String) (v : Nat) : String := name ++ "=" ++ toString v

/-- A profile as a brace list (R82); the braces are characters 123 and 125. -/
def profileText {cfg : Config} (p : TimingProfile cfg) : String :=
  String.singleton (Char.ofNat 123) ++
    String.intercalate ", "
      [pairText "header_mark" p.headerMark.toNat, pairText "header_space" p.headerSpace.toNat,
       pairText "bit_mark" p.bitMark.toNat, pairText "one_space" p.oneSpace.toNat,
       pairText "zero_space" p.zeroSpace.toNat, pairText "gap" p.gap.toNat,
       pairText "freq" p.freq.toNat, pairText "duty" p.duty.toNat] ++
    String.singleton (Char.ofNat 125)

/-- An interval as `(duration,on)` or `(duration,off)` (R83). -/
def intervalText {cfg : Config} (q : Request cfg) : String :=
  "(" ++ toString (requestDuration q).toNat ++ (if requestModulated q then ",on)" else ",off)")

/-- A call in the four-argument form for `msb` and the five-argument form for `lsb` (R81). -/
def callText {cfg : Config} (p : TimingProfile cfg) (payload : List Byte) (nbytes : BitVec cfg.NW)
    (repeats : BitVec cfg.RW) (order : BitOrder) : String :=
  "transmit(" ++ profileText p ++ ", " ++ payloadText payload ++ ", " ++ toString nbytes.toNat ++ ", " ++
    toString repeats.toNat ++ (match order with | .msb => ")" | .lsb => ", lsb)")

end Sys2Proof.Machine
end

