-- ==== Sys2Proof/Machine/Platform.lean ====
section
/-! DEFINITION. One step of the machine on any platform: the configuration is an argument (00_scope.md R7), and the
messages are the records of 30_encoding.md R85. `step` of Machine/Step.lean is the step at the default parameters, with the
words of R71 and R74 and the decoder between the agents. -/

namespace Sys2Proof.Machine

/-- One step of the agent whose turn it is, on the platform `cfg` (R9, R101, R114, R115). Where nobody has a step nothing
happens: after reset the encoder does nothing until a command comes (70_reset_and_hazards.md R182). -/
def stepOn (cfg : Config) (s : MachineState cfg) : ResultOn cfg :=
  match turn s with
  | .nobody => .next s
  | .host l rest => transmit cfg l.desc (hostSends l rest s)
  | .sequencer p => phaseOp p s
  | .driver (.mark d f c) => markOp d f c s
  | .driver (.space d) => spaceOp d s

end Sys2Proof.Machine
end

