-- ==== Sys2Proof/Safety.lean ====
section
/-! DEFINITION. The terms statements about runs use: runs of several steps, the invariant of every step (10_state.md R28 and
the rules each clause names), the trace as a prefix of the pulse train (41_sequencer_phases.md R126), and the premises and
the end of a launch (70_reset_and_hazards.md R190, R191). -/

namespace Sys2Proof.Machine

/-- `t` is reached from `s` in exactly `n` steps, none of which stops. -/
def stepsTo : Nat → State → State → Prop
  | 0, s, t => s = t
  | n + 1, s, t => ∃ u, step s = .next u ∧ stepsTo n u t

/-- `t` is reached from `s` in exactly `n` steps on the platform `cfg`, none of which stops. -/
def stepsOn (cfg : Config) : Nat → MachineState cfg → MachineState cfg → Prop
  | 0, s, t => s = t
  | n + 1, s, t => ∃ u, stepOn cfg s = .next u ∧ stepsOn cfg n u t

/-- `s` is reached from the reset state with some launches for the host to send and some answers for the driver to give. -/
def reachable (s : State) : Prop :=
  ∃ launches answers n,
    stepsTo n { State.reset with hostQueue := launches, drvAnswers := answers } s

/-- The same on the platform `cfg`. -/
def reachableOn (cfg : Config) (s : MachineState cfg) : Prop :=
  ∃ launches answers n,
    stepsOn cfg n { MachineState.reset cfg with hostQueue := launches, drvAnswers := answers } s

/-- The position invariant, word for word (10_state.md R28). -/
structure PositionInv {cfg : Config} (s : MachineState cfg) : Prop where
  idle : s.phase = .idle → s.pend = false
  iter : s.phase = .headerMark ∨ s.phase = .headerSpace ∨ s.phase = .gap ∨ s.phase = .bitMark ∨
    s.phase = .bitSpace → s.iter.toNat ≤ s.ops.repeats.toNat
  bit : s.phase = .bitMark ∨ s.phase = .bitSpace → s.bitidx.toNat < 8 * s.ops.nbytes.toNat
  header : s.phase = .headerMark ∨ s.phase = .headerSpace → s.bitidx.toNat = 0
  gapBits : s.phase = .gap → 1 ≤ s.ops.nbytes.toNat → s.bitidx.toNat = 8 * s.ops.nbytes.toNat - 1
  gapEmpty : s.phase = .gap → s.ops.nbytes.toNat = 0 → s.bitidx.toNat = 0

/-- What every step keeps, on every platform. -/
structure Inv {cfg : Config} (s : MachineState cfg) : Prop where
  position : PositionInv s
  /-- the host waits exactly while a call runs (R29, R36, R104, R106) -/
  waiting : s.hostWait = s.busy
  /-- `CAUSE` is `NONE` while a command runs (R31) -/
  cause : s.phase ≠ .idle → s.cause = .none
  /-- a command that runs has passed the configuration check (R103) -/
  config : s.phase ≠ .idle → configFault cfg s.ops = none
  /-- the payload memory has its canonical form (20_memory.md R50) -/
  payload : Memory.wf cfg s.payload = true
  /-- the request in flight is the current position's, is the last of `TRACE`, and is what the channel holds (R30, R35) -/
  flight : s.pend = true → ∃ q, timingMux s = some q ∧ s.drvChan = some q ∧
    s.trace.getLast? = some q
  /-- nothing is in flight otherwise (R30) -/
  noFlight : s.pend = false → s.drvChan = none
  /-- every mark of the running call carries `FREQ` and `DUTY` (42_carrier_primitives.md R147) -/
  carrier : s.phase ≠ .idle → ∀ d f c, Request.mark d f c ∈ s.trace → f = s.ops.freq ∧ c = s.ops.duty

/-- The premise `PayloadLongEnough` for the latched command (70_reset_and_hazards.md R191). -/
def payloadLongEnough {cfg : Config} (s : MachineState cfg) : Prop := s.ops.nbytes.toNat ≤ s.plen

/-- The number of requests of one iteration, `3 + 2 * TOTAL` (R126). -/
def iterationLength {cfg : Config} (r : OperandRegs cfg) : Nat := 3 + 2 * (8 * r.nbytes.toNat)

/-- The number of requests of a whole call, `(REPEATS + 1) * (3 + 2 * TOTAL)` (R121, R126). -/
def callLength {cfg : Config} (r : OperandRegs cfg) : Nat := (r.repeats.toNat + 1) * iterationLength r

/-- How many requests of the current iteration come before the current position's. -/
def placeInIteration {cfg : Config} (s : MachineState cfg) : Nat :=
  match s.phase with
  | .idle => 0
  | .headerMark => 0
  | .headerSpace => 1
  | .bitMark => 2 + 2 * s.bitidx.toNat
  | .bitSpace => 3 + 2 * s.bitidx.toNat
  | .gap => 2 + 2 * (8 * s.ops.nbytes.toNat)

/-- How many requests of the running call have been issued, computed from the position and `PEND`. -/
def issuedCount {cfg : Config} (s : MachineState cfg) : Nat :=
  s.iter.toNat * iterationLength s.ops + placeInIteration s + (if s.pend then 1 else 0)

/-- While a call with a long enough payload runs, `TRACE` is the part of the train up to the current position (R126). -/
def TraceInv {cfg : Config} (s : MachineState cfg) : Prop :=
  s.phase ≠ .idle → payloadLongEnough s → s.trace = (train s.ops s.payload).take (issuedCount s)

/-- The premise `Idle` at a `TRANSMIT` step (R191): no call runs, nothing is in flight, so the driver's channel is empty, and
the host does not wait. -/
def idlePremise {cfg : Config} (s : MachineState cfg) : Prop :=
  s.phase = .idle ∧ s.pend = false ∧ s.hostWait = false ∧ s.drvChan = none

/-- A legal descriptor whose configuration passes the check on the platform `cfg` (R103). -/
def acceptable (cfg : Config) (d : Descriptor cfg) : Prop :=
  d.op = opTransmit ∧ d.reserved = 0#15 ∧ configFault cfg d.operands = none

/-- The end of a run with response `c` (70_reset_and_hazards.md R190). -/
def endedWith {cfg : Config} (c : Cause) (s : MachineState cfg) : Prop :=
  s.phase = .idle ∧ s.pend = false ∧ s.cause = c ∧ s.hostWait = false ∧ s.responses.getLast? = some c

end Sys2Proof.Machine
end

