-- ==== Sys2Proof/Certificates/Slice0/Obligations.lean ====
section
/-! DEFINITION. The statements for the provers. Each docstring names the rule of spec/ it formalises. Statements about `exec`
and `step` are at the default parameters of R7; those about an operation or a step with an argument `cfg` are for every
platform. -/

open Sys2Proof Sys2Proof.Machine

/-- Decoding the message of a well-formed operation gives the operation back, with every operand at every value (formats
`CMD`, `PHASE` and `DRVREQ`: R71, R73, R74). -/
def Obligations.DecodeEncodeWellFormed : Prop :=
  ∀ i : Instr, i.wellFormed = true → decode (encode i) = .ok i

/-- Each message selects at most one operation, and no bit of it is dropped: an operation that is decoded is well formed
and its encoding is the message. That a `SPACE` with a nonzero third word is none is notes/assumptions/8.md. -/
def Obligations.EncodeDecodedMessage : Prop :=
  ∀ (m : Message) (i : Instr), decode m = .ok i → i.wellFormed = true ∧ encode i = m

/-- Words written out from the formats of R71, R73 and R74 decode to the operations they stand for: the descriptor of the
source's example, one bit moved in each small field of it, the five phase codes, and two requests. -/
def Obligations.DecodeWrittenWords : Prop :=
  decode (.cmd ⟨0x01000032#32, 0x00000001#32, 0x00009470#32, 0x00000EC4#32, 0x0000059E#32, 0x00000276#32,
      0x0000047C#32, 0x000001DC#32, 0x000186A0#32⟩) =
    .ok (.transmit ⟨1#8, 0#15, ⟨3780#32, 1438#32, 630#32, 1148#32, 476#32, 100000#32, 38000#32, 50#8, 1#16, 0#16, 0#1⟩⟩) ∧
  decode (.cmd ⟨0x01000119#32, 0x00030002#32, 0#32, 0#32, 0#32, 0#32, 0#32, 0#32, 0#32⟩) =
    .ok (.transmit ⟨1#8, 0#15, ⟨0#32, 0#32, 0#32, 0#32, 0#32, 0#32, 0#32, 25#8, 2#16, 3#16, 1#1⟩⟩) ∧
  decode (.cmd ⟨0x02000019#32, 0#32, 0#32, 0#32, 0#32, 0#32, 0#32, 0#32, 0#32⟩) = .error (.reservedOp 2#8) ∧
  decode (.cmd ⟨0x01000219#32, 0#32, 0#32, 0#32, 0#32, 0#32, 0#32, 0#32, 0#32⟩) = .error (.reservedField 1#15) ∧
  decode (.phase 0b001#3) = .ok .headerMark ∧ decode (.phase 0b010#3) = .ok .headerSpace ∧
  decode (.phase 0b011#3) = .ok .bitMark ∧ decode (.phase 0b100#3) = .ok .bitSpace ∧
  decode (.phase 0b101#3) = .ok .gap ∧
  decode (.drv ⟨0x80000032#32, 0x00000276#32, 0x00009470#32⟩) = .ok (.mark 630#32 38000#32 50#8) ∧
  decode (.drv ⟨0x00000000#32, 0x0000047C#32, 0x00000000#32⟩) = .ok (.space 1148#32)

/-- The decoder's choice of `TRANSMIT` and `MARK` is the operation table's match and mask on the first word (R77,
spec/opcode_table.json). For `SPACE` the table's match and mask is necessary only: that the decoder also asks for a zero
`FREQ` word is the model's (DEDUCED from R74), notes/assumptions/8.md. -/
def Obligations.FirstWordMatchesOperationTable : Prop :=
  (∀ m : CmdMsg, (∃ d, decode (.cmd m) = .ok (.transmit d)) ↔
    m.w0 &&& 0xFFFFFE00#32 = 0x01000000#32) ∧
  (∀ m : DrvMsg, (∃ d f c, decode (.drv m) = .ok (.mark d f c)) ↔
    m.q0 &&& 0xFFFFFF00#32 = 0x80000000#32) ∧
  (∀ m : DrvMsg, (∃ d, decode (.drv m) = .ok (.space d)) ↔
    m.q0 &&& 0xFFFFFFFF#32 = 0x00000000#32 ∧ m.q2 = 0#32)

/-- A step runs the operation its message selects: the code in `PHASE` with nothing in flight, the request in flight, or
the descriptor the host sends. In the last case the step binds the launch's buffer to the payload port first and takes the
launch off the host's list: that the host does both in the one step in which it sends, as soon as it can, is the model's
choice (DESIGN CHOICE), notes/assumptions/9.md. -/
def Obligations.StepRunsDecodedInstruction : Prop :=
  (∀ (s : State) (i : Instr), s.pend = false → s.phase ≠ .idle →
    decode (.phase s.phase.code) = .ok i → step s = exec i s) ∧
  (∀ (s : State) (q : Request Config.default) (i : Instr), s.pend = true → s.drvChan = some q →
    decode (.drv (requestWords q)) = .ok i → step s = exec i s) ∧
  (∀ (s : State) (l : Launch Config.default) (rest : List (Launch Config.default)) (i : Instr),
    s.pend = false → s.phase = .idle → s.hostWait = false → s.hostQueue = l :: rest →
    decode (.cmd l.words) = .ok i →
    step s = exec i { s with payload := Memory.ofBytes Config.default l.payload, hostQueue := rest })

/-- A step on words that are no `TRANSMIT` answers `CMD_ILLEGAL` at once (R78, R107). That this same step binds the illegal
launch's buffer and takes the launch off the host's list is the model's choice (DESIGN CHOICE), notes/assumptions/9.md. -/
def Obligations.StepAnswersIllegalDescriptor : Prop :=
  ∀ (s : State) (l : Launch Config.default) (rest : List (Launch Config.default)) (e : DecodeError),
    s.pend = false → s.phase = .idle → s.hostWait = false → s.hostQueue = l :: rest →
    decode (.cmd l.words) = .error e →
    step s = .next { s with payload := Memory.ofBytes Config.default l.payload, hostQueue := rest, trace := [],
                            cause := .cmdIllegal, responses := s.responses ++ [.cmdIllegal] }

/-- A driver that never answers: the machine stays as it is for ever, no fault, no code (42_carrier_primitives.md section 3,
"A driver that never answers", an inference of the spec from the completion step). That the hang shows as any number of steps
that repeat the state is the model's choice (DESIGN CHOICE), notes/assumptions/12.md, and that an empty list of answers is a
driver that never answers is notes/assumptions/5.md. -/
def Obligations.SilentDriverHangsForever : Prop :=
  ∀ (n : Nat) (s t : State), Inv s.toMachineState → s.pend = true → s.drvAnswers = [] →
    (stepsTo n s t ↔ t = s)

/-- With no command to send, the idle machine does nothing (70_reset_and_hazards.md section 1: "After reset the encoder does
nothing until a TRANSMIT is accepted"). That this shows as steps that repeat the state is the model's choice (DESIGN CHOICE),
notes/assumptions/12.md. -/
def Obligations.IdleWithoutCommandWaits : Prop :=
  ∀ (n : Nat) (s t : State), s.phase = .idle → s.pend = false → s.hostWait = false → s.hostQueue = [] →
    (stepsTo n s t ↔ t = s)

/-- R101: `TRANSMIT` is enabled if and only if `PHASE = IDLE` and `HOSTWAIT = 0`; while a call runs the command channel takes
no descriptor, and the host's launches wait. The second clause, that `exec` answers such a `TRANSMIT` with the refusal
`transmitNotEnabled`, is the model's (DEDUCED: the rule says that the step does not exist), notes/assumptions/7.md. -/
def Obligations.TransmitEnabledExactlyWhenIdle : Prop :=
  (∀ (d : Descriptor Config.default) (s : State),
    (∃ t, exec (.transmit d) s = .next t) ↔ (s.phase = .idle ∧ s.hostWait = false)) ∧
  (∀ (d : Descriptor Config.default) (s : State), ¬ (s.phase = .idle ∧ s.hostWait = false) →
    exec (.transmit d) s = .refused .transmitNotEnabled) ∧
  (∀ s t : State, s.phase ≠ .idle → step s = .next t → t.hostQueue = s.hostQueue)

/-- R104: a legal descriptor that passes the check starts the call at `HEADER_MARK` of iteration 0, latched (R102), with
nothing issued and no response yet; on every platform, and for the operation at the default parameters. -/
def Obligations.TransmitStartsValidCommand : Prop :=
  (∀ (cfg : Config) (d : Descriptor cfg) (s : MachineState cfg),
    s.phase = .idle → s.hostWait = false → acceptable cfg d →
    transmit cfg d s = .next { s with ops := d.operands, phase := .headerMark, iter := 0, bitidx := 0,
                                      pend := false, cause := .none, trace := [], hostWait := true }) ∧
  (∀ (d : Descriptor Config.default) (s : State),
    s.phase = .idle → s.hostWait = false → d.op = 0x01#8 → d.reserved = 0#15 →
    d.operands.freq ≠ 0#32 → d.operands.duty.toNat ≤ 100 →
    exec (.transmit d) s = .next { s with ops := d.operands, phase := .headerMark, iter := 0, bitidx := 0,
                                          pend := false, cause := .none, trace := [], hostWait := true })

/-- R107: an illegal descriptor is answered with `CMD_ILLEGAL` in the same step; no operand register is written. -/
def Obligations.TransmitRefusesIllegalDescriptor : Prop :=
  ∀ (d : Descriptor Config.default) (s : State),
    s.phase = .idle → s.hostWait = false → (d.op ≠ 0x01#8 ∨ d.reserved ≠ 0#15) →
    exec (.transmit d) s = .next { s with trace := [], cause := .cmdIllegal, phase := .idle, pend := false,
                                          hostWait := false, responses := s.responses ++ [.cmdIllegal] }

/-- R103: the checks of a legal descriptor in their order, the first failure reported, on every platform; with the default
predicates the first check fails exactly for a zero frequency and the third never does. -/
def Obligations.TransmitChecksInOrder : Prop :=
  (∀ (cfg : Config) (d : Descriptor cfg) (s : MachineState cfg),
    s.phase = .idle → s.hostWait = false → d.op = 0x01#8 → d.reserved = 0#15 →
    transmit cfg d s = .next
      (if cfg.freqValid d.operands.freq = false then
        { s with ops := d.operands, trace := [], cause := .cfgFreq, phase := .idle, pend := false,
                 hostWait := false, responses := s.responses ++ [.cfgFreq] }
      else if 100 < d.operands.duty.toNat then
        { s with ops := d.operands, trace := [], cause := .cfgDuty, phase := .idle, pend := false,
                 hostWait := false, responses := s.responses ++ [.cfgDuty] }
      else if cfg.durValid d.operands.hm d.operands.hs d.operands.bm d.operands.os d.operands.zs
          d.operands.gap = false then
        { s with ops := d.operands, trace := [], cause := .cfgTiming, phase := .idle, pend := false,
                 hostWait := false, responses := s.responses ++ [.cfgTiming] }
      else
        { s with ops := d.operands, phase := .headerMark, iter := 0, bitidx := 0,
                 pend := false, cause := .none, trace := [], hostWait := true })) ∧
  (∀ (d : Descriptor Config.default) (s : State),
    s.phase = .idle → s.hostWait = false → d.op = 0x01#8 → d.reserved = 0#15 →
    exec (.transmit d) s = .next
      (if d.operands.freq = 0#32 then
        { s with ops := d.operands, trace := [], cause := .cfgFreq, phase := .idle, pend := false,
                 hostWait := false, responses := s.responses ++ [.cfgFreq] }
      else if 100 < d.operands.duty.toNat then
        { s with ops := d.operands, trace := [], cause := .cfgDuty, phase := .idle, pend := false,
                 hostWait := false, responses := s.responses ++ [.cfgDuty] }
      else
        { s with ops := d.operands, phase := .headerMark, iter := 0, bitidx := 0,
                 pend := false, cause := .none, trace := [], hostWait := true }))

/-- `HEADER_MARK` (R116) with its issue and completion steps (R114, R115), and the abort on a driver fault (R156). -/
def Obligations.HeaderMarkIssuesThenCompletes : Prop :=
  ∀ s : State, s.phase = .headerMark →
    (s.pend = false →
      exec .headerMark s = .next
        { s with trace := s.trace ++ [.mark s.ops.hm s.ops.freq s.ops.duty],
                 drvChan := some (.mark s.ops.hm s.ops.freq s.ops.duty), pend := true }) ∧
    (∀ rest, s.pend = true → s.drvAnswers = .ok :: rest →
      exec .headerMark s = .next
        { s with drvAnswers := rest, drvChan := none, pend := false, phase := .headerSpace }) ∧
    (∀ rest, s.pend = true → s.drvAnswers = .fault :: rest →
      exec .headerMark s = .next
        { s with drvAnswers := rest, drvChan := none, pend := false, phase := .idle, cause := .drvFault,
                 hostWait := false, responses := s.responses ++ [.drvFault] })

/-- `HEADER_SPACE` (R117): with no bits the gap follows. -/
def Obligations.HeaderSpaceIssuesThenCompletes : Prop :=
  ∀ s : State, s.phase = .headerSpace →
    (s.pend = false →
      exec .headerSpace s = .next
        { s with trace := s.trace ++ [.space s.ops.hs],
                 drvChan := some (.space s.ops.hs), pend := true }) ∧
    (∀ rest, s.pend = true → s.drvAnswers = .ok :: rest →
      exec .headerSpace s = .next
        { s with drvAnswers := rest, drvChan := none, pend := false,
                 phase := if s.ops.nbytes.toNat = 0 then .gap else .bitMark }) ∧
    (∀ rest, s.pend = true → s.drvAnswers = .fault :: rest →
      exec .headerSpace s = .next
        { s with drvAnswers := rest, drvChan := none, pend := false, phase := .idle, cause := .drvFault,
                 hostWait := false, responses := s.responses ++ [.drvFault] })

/-- `BIT_MARK` (R118): the bit's value plays no part. -/
def Obligations.BitMarkIssuesThenCompletes : Prop :=
  ∀ s : State, s.phase = .bitMark →
    (s.pend = false →
      exec .bitMark s = .next
        { s with trace := s.trace ++ [.mark s.ops.bm s.ops.freq s.ops.duty],
                 drvChan := some (.mark s.ops.bm s.ops.freq s.ops.duty), pend := true }) ∧
    (∀ rest, s.pend = true → s.drvAnswers = .ok :: rest →
      exec .bitMark s = .next
        { s with drvAnswers := rest, drvChan := none, pend := false, phase := .bitSpace }) ∧
    (∀ rest, s.pend = true → s.drvAnswers = .fault :: rest →
      exec .bitMark s = .next
        { s with drvAnswers := rest, drvChan := none, pend := false, phase := .idle, cause := .drvFault,
                 hostWait := false, responses := s.responses ++ [.drvFault] })

/-- `BIT_SPACE` (R119): the bit of the payload byte `BITIDX div 8` selects the space (R112, R113), and the last bit is followed
by the gap with `BITIDX` kept. -/
def Obligations.BitSpaceIssuesThenCompletes : Prop :=
  ∀ s : State, s.phase = .bitSpace →
    (∀ b : Byte, s.pend = false → Memory.read s.payload (s.bitidx.toNat / 8) = some b →
      ∀ q : BitVec 32,
        q = (if (if s.ops.order = 0#1 then b.getLsbD (7 - s.bitidx.toNat % 8)
                 else b.getLsbD (s.bitidx.toNat % 8)) = true then s.ops.os else s.ops.zs) →
        exec .bitSpace s = .next
          { s with trace := s.trace ++ [.space q], drvChan := some (.space q), pend := true }) ∧
    (∀ rest, s.pend = true → s.bitidx.toNat < 8 * s.ops.nbytes.toNat → s.drvAnswers = .ok :: rest →
      exec .bitSpace s = .next
        (if s.bitidx.toNat + 1 < 8 * s.ops.nbytes.toNat then
          { s with drvAnswers := rest, drvChan := none, pend := false, bitidx := s.bitidx + 1, phase := .bitMark }
        else
          { s with drvAnswers := rest, drvChan := none, pend := false, phase := .gap })) ∧
    (∀ rest, s.pend = true → s.drvAnswers = .fault :: rest →
      exec .bitSpace s = .next
        { s with drvAnswers := rest, drvChan := none, pend := false, phase := .idle, cause := .drvFault,
                 hostWait := false, responses := s.responses ++ [.drvFault] })

/-- `GAP` (R120): another iteration while `ITER < REPEATS` (R121), else the end of the call with response 0 (R122). -/
def Obligations.GapIssuesThenCompletes : Prop :=
  ∀ s : State, s.phase = .gap →
    (s.pend = false →
      exec .gap s = .next
        { s with trace := s.trace ++ [.space s.ops.gap],
                 drvChan := some (.space s.ops.gap), pend := true }) ∧
    (∀ rest, s.pend = true → s.drvAnswers = .ok :: rest →
      exec .gap s = .next
        (if s.iter.toNat < s.ops.repeats.toNat then
          { s with drvAnswers := rest, drvChan := none, pend := false, iter := s.iter + 1, bitidx := 0,
                   phase := .headerMark }
        else
          { s with drvAnswers := rest, drvChan := none, pend := false, phase := .idle,
                   hostWait := false, responses := s.responses ++ [.none] })) ∧
    (∀ rest, s.pend = true → s.drvAnswers = .fault :: rest →
      exec .gap s = .next
        { s with drvAnswers := rest, drvChan := none, pend := false, phase := .idle, cause := .drvFault,
                 hostWait := false, responses := s.responses ++ [.drvFault] })

/-- `MARK(d, f, c)` in flight (R141): the driver's answer is the completion step of the phase that is current (R143), for
every phase, and for the two phases that issue marks the next position is `HEADER_SPACE` and `BIT_SPACE`. The words in flight
are those of R74. -/
def Obligations.MarkAnsweredCompletesPhase : Prop :=
  ∀ (d : BitVec 32) (f : BitVec 32) (c : BitVec 8) (s : State),
    s.pend = true → s.drvChan = some (.mark d f c) →
    s.drvChan.map requestWords = some ⟨1#1 ++ 0#23 ++ c, d, f⟩ ∧
    (∀ i, decode (.phase s.phase.code) = .ok i → exec (.mark d f c) s = exec i s) ∧
    (∀ rest, s.phase = .headerMark → s.drvAnswers = .ok :: rest →
      exec (.mark d f c) s = .next
        { s with drvAnswers := rest, drvChan := none, pend := false, phase := .headerSpace }) ∧
    (∀ rest, s.phase = .bitMark → s.drvAnswers = .ok :: rest →
      exec (.mark d f c) s = .next
        { s with drvAnswers := rest, drvChan := none, pend := false, phase := .bitSpace }) ∧
    (∀ rest, s.phase ≠ .idle → s.drvAnswers = .fault :: rest →
      exec (.mark d f c) s = .next
        { s with drvAnswers := rest, drvChan := none, pend := false, phase := .idle, cause := .drvFault,
                 hostWait := false, responses := s.responses ++ [.drvFault] })

/-- `SPACE(d)` in flight (R142): as for a mark, with the three phases that issue spaces written out. -/
def Obligations.SpaceAnsweredCompletesPhase : Prop :=
  ∀ (d : BitVec 32) (s : State), s.pend = true → s.drvChan = some (.space d) →
    s.drvChan.map requestWords = some ⟨0#32, d, 0#32⟩ ∧
    (∀ i, decode (.phase s.phase.code) = .ok i → exec (.space d) s = exec i s) ∧
    (∀ rest, s.phase = .headerSpace → s.drvAnswers = .ok :: rest →
      exec (.space d) s = .next
        { s with drvAnswers := rest, drvChan := none, pend := false,
                 phase := if s.ops.nbytes.toNat = 0 then .gap else .bitMark }) ∧
    (∀ rest, s.phase = .bitSpace → s.bitidx.toNat < 8 * s.ops.nbytes.toNat → s.drvAnswers = .ok :: rest →
      exec (.space d) s = .next
        (if s.bitidx.toNat + 1 < 8 * s.ops.nbytes.toNat then
          { s with drvAnswers := rest, drvChan := none, pend := false, bitidx := s.bitidx + 1, phase := .bitMark }
        else
          { s with drvAnswers := rest, drvChan := none, pend := false, phase := .gap })) ∧
    (∀ rest, s.phase = .gap → s.drvAnswers = .ok :: rest →
      exec (.space d) s = .next
        (if s.iter.toNat < s.ops.repeats.toNat then
          { s with drvAnswers := rest, drvChan := none, pend := false, iter := s.iter + 1, bitidx := 0,
                   phase := .headerMark }
        else
          { s with drvAnswers := rest, drvChan := none, pend := false, phase := .idle,
                   hostWait := false, responses := s.responses ++ [.none] })) ∧
    (∀ rest, s.phase ≠ .idle → s.drvAnswers = .fault :: rest →
      exec (.space d) s = .next
        { s with drvAnswers := rest, drvChan := none, pend := false, phase := .idle, cause := .drvFault,
                 hostWait := false, responses := s.responses ++ [.drvFault] })

/-- An operation that is not enabled is refused by name: a phase operation whose code is not in `PHASE` (R73, R114), and a
driver primitive that is not in flight (R115, R140). That the model refuses here is notes/assumptions/7.md. -/
def Obligations.OperationsNotEnabledAreRefused : Prop :=
  (∀ (s : State) (i : Instr),
    (i = .headerMark ∧ s.phase ≠ .headerMark ∨ i = .headerSpace ∧ s.phase ≠ .headerSpace ∨
      i = .bitMark ∧ s.phase ≠ .bitMark ∨ i = .bitSpace ∧ s.phase ≠ .bitSpace ∨
      i = .gap ∧ s.phase ≠ .gap) →
    exec i s = .refused .phaseNotSelected) ∧
  (∀ (s : State) (d : BitVec 32) (f : BitVec 32) (c : BitVec 8),
    s.pend = false ∨ s.drvChan ≠ some (.mark d f c) ∨ s.phase = .idle →
    exec (.mark d f c) s = .refused .requestNotInFlight) ∧
  (∀ (s : State) (d : BitVec 32),
    s.pend = false ∨ s.drvChan ≠ some (.space d) ∨ s.phase = .idle →
    exec (.space d) s = .refused .requestNotInFlight)

/-- The model fault `PayloadUnderrun` of R55: raised exactly by the issue step of `BIT_SPACE` on a byte at or beyond `plen`,
and by nothing else. -/
def Obligations.UnderrunIsTheOnlyFault : Prop :=
  (∀ s : State, Memory.wf Config.default s.payload = true →
    (exec .bitSpace s = .fault .payloadUnderrun ↔
      s.phase = .bitSpace ∧ s.pend = false ∧ s.plen ≤ s.bitidx.toNat / 8)) ∧
  (∀ (i : Instr) (s : State) (e : Fault), exec i s = .fault e → i = .bitSpace)

/-- R114: the issue step, for every phase: the mux's request is recorded and handed over and `PEND` set, and nothing else
changes; there is no request only where the payload byte has no value; and no other step issues one. -/
def Obligations.IssueStepHandsOverRequest : Prop :=
  (∀ (s : State) (q : Request Config.default), s.phase ≠ .idle → s.pend = false → timingMux s.toMachineState = some q →
    step s = .next { s with trace := s.trace ++ [q], drvChan := some q, pend := true }) ∧
  (∀ s : State, s.phase ≠ .idle → s.pend = false →
    (timingMux s.toMachineState = none ↔ s.phase = .bitSpace ∧ Memory.read s.payload (s.bitidx.toNat / 8) = none)) ∧
  (∀ (s t : State) (q : Request Config.default), step s = .next t → t.trace = s.trace ++ [q] →
    s.phase ≠ .idle ∧ s.pend = false)

/-- R113: the timing mux's table, on every platform. -/
def Obligations.TimingMuxTable : Prop :=
  ∀ (cfg : Config) (s : MachineState cfg),
    (s.phase = .headerMark → timingMux s = some (.mark s.ops.hm s.ops.freq s.ops.duty)) ∧
    (s.phase = .headerSpace → timingMux s = some (.space s.ops.hs)) ∧
    (s.phase = .bitMark → timingMux s = some (.mark s.ops.bm s.ops.freq s.ops.duty)) ∧
    (s.phase = .bitSpace → payloadBit s.ops.order s.payload s.bitidx = some true →
      timingMux s = some (.space s.ops.os)) ∧
    (s.phase = .bitSpace → payloadBit s.ops.order s.payload s.bitidx = some false →
      timingMux s = some (.space s.ops.zs)) ∧
    (s.phase = .gap → timingMux s = some (.space s.ops.gap))

/-- R157: a `FAULT` answer at any request of a call aborts it with code 4, and the request that failed stays the last of
`TRACE`. That `TRACE` is a prefix of the train is said of every state with the premise `TraceInv`, which every step keeps
(`StepKeepsTraceInv`), and, without that premise, of every reachable state. The premise `payloadLongEnough` is R191's. -/
def Obligations.DriverFaultAbortsCall : Prop :=
  ∀ (s : State) (rest : List Answer), Inv s.toMachineState → s.pend = true → s.drvAnswers = .fault :: rest →
    step s = .next { s with drvAnswers := rest, drvChan := none, pend := false, phase := .idle,
                            cause := .drvFault, hostWait := false,
                            responses := s.responses ++ [.drvFault] } ∧
    (∃ q, timingMux s.toMachineState = some q ∧ s.trace.getLast? = some q) ∧
    (TraceInv s.toMachineState → payloadLongEnough s.toMachineState → s.trace <+: train s.ops s.payload) ∧
    (reachable s → payloadLongEnough s.toMachineState → s.trace <+: train s.ops s.payload)

/-- R21: the operand registers are written together, and only, by the acceptance of a `TRANSMIT`, and are constant from
acceptance until the response. -/
def Obligations.OperandsWrittenByTransmitOnly : Prop :=
  (∀ (i : Instr) (s t : State), (∀ d, i ≠ .transmit d) → exec i s = .next t → t.ops = s.ops) ∧
  (∀ (d : Descriptor Config.default) (s t : State), exec (.transmit d) s = .next t →
    t.ops = if d.op = 0x01#8 ∧ d.reserved = 0#15 then d.operands else s.ops) ∧
  (∀ s t : State, s.phase ≠ .idle → step s = .next t → t.ops = s.ops)

/-- R51: no operation writes the payload, and none but `BIT_SPACE` reads it. -/
def Obligations.PayloadNeverWrittenReadByBitSpace : Prop :=
  (∀ (i : Instr) (s t : State) (a : Nat), exec i s = .next t →
    Memory.read t.payload a = Memory.read s.payload a) ∧
  (∀ (i : Instr) (s t : State) (m : Memory), i ≠ .bitSpace → exec i s = .next t →
    exec i { s with payload := m } = .next { t with payload := m })

/-- R31: `CAUSE` is written 0 by a valid start and with its code by an abort, and otherwise unchanged; it is 0 while a command
runs, it is the code of the response when one is sent, and no operation reads it. -/
def Obligations.CauseWrittenByStartAndAbortNeverRead : Prop :=
  (∀ s t : State, step s = .next t → t.cause ≠ s.cause →
    (s.phase = .idle ∧ t.phase = .headerMark ∧ t.cause = .none) ∨
    (t.phase = .idle ∧ t.cause ≠ .none ∧ t.responses = s.responses ++ [t.cause])) ∧
  (∀ (s t : State) (c : Cause), step s = .next t →
    ∃ c', step { s with cause := c } = .next { t with cause := c' }) ∧
  (∀ (s t : State), Inv s.toMachineState → step s = .next t → t.phase ≠ .idle → t.cause = .none) ∧
  (∀ (s t : State) (c : Cause), Inv s.toMachineState → step s = .next t → t.responses = s.responses ++ [c] → t.cause = c)

/-- No operation reads the model's record: with another trace and other responses recorded, the machine does the same
(00_scope.md R10, 10_state.md R35). -/
def Obligations.RecordNeverRead : Prop :=
  ∀ (s t : State) (l : List (Request Config.default)) (r : List Cause), step s = .next t →
    ∃ l' r', step { s with trace := l, responses := r } = .next { t with trace := l', responses := r' }

/-- The trace changes only by an issue step, which appends one request and sets `PEND`, and by a `TRANSMIT` step, which
empties it (R10, R114, R140). -/
def Obligations.TraceGrowsByIssueOnly : Prop :=
  ∀ s t : State, step s = .next t →
    t.trace = s.trace ∨
    (∃ q, s.phase ≠ .idle ∧ s.pend = false ∧ t.pend = true ∧ t.phase = s.phase ∧ t.trace = s.trace ++ [q] ∧
      t.drvChan = some q) ∨
    (s.phase = .idle ∧ t.trace = [] ∧ t.hostQueue.length + 1 = s.hostQueue.length)

/-- Each descriptor gets exactly one response (R100, R106): the responses got, the call still waited for and the launches
still to be sent are together as many after every step as before it. That the launches
still to be sent are a list, one taken off by each `TRANSMIT` step, is the model's choice (DESIGN CHOICE),
notes/assumptions/9.md. -/
def Obligations.EachDescriptorAnsweredOnce : Prop :=
  ∀ s t : State, Inv s.toMachineState → step s = .next t →
    t.responses.length + (if t.hostWait = true then 1 else 0) + t.hostQueue.length =
      s.responses.length + (if s.hostWait = true then 1 else 0) + s.hostQueue.length

/-- Every step keeps the invariant, from every state that has it. -/
def Obligations.StepKeepsInv : Prop :=
  ∀ s t : State, Inv s.toMachineState → step s = .next t → Inv t.toMachineState

/-- The state after reset has the invariant, on every platform, whatever launches and answers are still to come. -/
def Obligations.ResetHasInv : Prop :=
  (∀ (launches : List (Launch Config.default)) (answers : List Answer),
    Inv ({ State.reset with hostQueue := launches, drvAnswers := answers } : State).toMachineState) ∧
  (∀ (cfg : Config) (launches : List (Launch cfg)) (answers : List Answer),
    Inv { MachineState.reset cfg with hostQueue := launches, drvAnswers := answers })

/-- The position invariant of every reachable state (10_state.md section 3, "Position invariant", an inference of the spec). -/
def Obligations.ReachableStatesHavePositionInv : Prop :=
  ∀ s : State, reachable s → PositionInv s.toMachineState

/-- While a call with a long enough payload runs, every step keeps `TRACE` the part of the train up to the position
(41_sequencer_phases.md section 8, the induction the spec names there). -/
def Obligations.StepKeepsTraceInv : Prop :=
  ∀ s t : State, Inv s.toMachineState → TraceInv s.toMachineState → step s = .next t → TraceInv t.toMachineState

/-- A valid launch all of whose requests are answered `OK` ends after as many issue and completion steps as the train has
requests, with response 0 and exactly the train as `TRACE` (40_transmit_command.md section 2, "What a TRANSMIT guarantees,
end to end", and 41_sequencer_phases.md section 8, inferences of the spec). That
the `TRANSMIT` step also binds the buffer and takes the launch off the host's list is the model's choice (DESIGN CHOICE),
notes/assumptions/9.md. -/
def Obligations.CallEmitsWholeTrain : Prop :=
  ∀ (s : State) (l : Launch Config.default) (queue : List (Launch Config.default)) (d : Descriptor Config.default)
    (answers : List Answer),
    idlePremise s.toMachineState → s.hostQueue = l :: queue → decode (.cmd l.words) = .ok (.transmit d) →
    configFault Config.default d.operands = none → d.operands.nbytes.toNat ≤ l.payload.length →
    s.drvAnswers = List.replicate (callLength d.operands) .ok ++ answers →
    ∃ t, stepsTo (1 + 2 * callLength d.operands) s t ∧
      t.trace = train d.operands (Memory.ofBytes Config.default l.payload) ∧
      t.responses = s.responses ++ [.none] ∧ t.phase = .idle ∧ t.pend = false ∧ t.cause = .none ∧
      t.hostWait = false ∧ t.ops = d.operands ∧ t.payload = Memory.ofBytes Config.default l.payload ∧
      t.hostQueue = queue ∧ t.drvAnswers = answers

/-- The same launch with `FAULT` as the answer to request number `k + 1` ends with response 4 and the first `k + 1` requests
of the train as `TRACE` (41_sequencer_phases.md section 8, an inference of the spec). That
the `TRANSMIT` step also binds the buffer and takes the launch off the host's list is the model's choice (DESIGN CHOICE),
notes/assumptions/9.md. -/
def Obligations.FaultedCallEmitsPrefix : Prop :=
  ∀ (s : State) (l : Launch Config.default) (queue : List (Launch Config.default)) (d : Descriptor Config.default)
    (answers : List Answer) (k : Nat),
    idlePremise s.toMachineState → s.hostQueue = l :: queue → decode (.cmd l.words) = .ok (.transmit d) →
    configFault Config.default d.operands = none → d.operands.nbytes.toNat ≤ l.payload.length →
    k < callLength d.operands →
    s.drvAnswers = List.replicate k .ok ++ .fault :: answers →
    ∃ t, stepsTo (1 + 2 * (k + 1)) s t ∧
      t.trace = (train d.operands (Memory.ofBytes Config.default l.payload)).take (k + 1) ∧
      t.responses = s.responses ++ [.drvFault] ∧ t.phase = .idle ∧ t.pend = false ∧ t.cause = .drvFault ∧
      t.hostWait = false ∧ t.ops = d.operands ∧ t.hostQueue = queue ∧ t.drvAnswers = answers

/-- R53: with `ORDER = 0` bytes go in increasing index and each from bit 7 to bit 0; flat bit index `i` is bit
`7 - (i mod 8)` of byte `P[i div 8]`, and `0xC4` is emitted as `1,1,0,0,0,1,0,0`. -/
def Obligations.MsbFirstEmissionOrder : Prop :=
  (∀ (cfg : Config) (r : OperandRegs cfg) (m : Memory) (i : BitVec (cfg.NW + 3)) (b : Byte),
    Memory.wf cfg m = true → r.order = 0#1 →
    r.nbytes.toNat ≤ m.length → i.toNat < 8 * r.nbytes.toNat → Memory.read m (i.toNat / 8) = some b →
    payloadBit r.order m i = some (b.getLsbD (7 - i.toNat % 8)) ∧
    (commandBits r m)[i.toNat]? = some (b.getLsbD (7 - i.toNat % 8))) ∧
  byteBits 0#1 0xC4#8 = [true, true, false, false, false, true, false, false]

/-- R54: with `ORDER = 1` bytes go in increasing index and each from bit 0 to bit 7; `0xC4` is emitted as
`0,0,1,0,0,0,1,1`. -/
def Obligations.LsbFirstEmissionOrder : Prop :=
  (∀ (cfg : Config) (r : OperandRegs cfg) (m : Memory) (i : BitVec (cfg.NW + 3)) (b : Byte),
    Memory.wf cfg m = true → r.order = 1#1 →
    r.nbytes.toNat ≤ m.length → i.toNat < 8 * r.nbytes.toNat → Memory.read m (i.toNat / 8) = some b →
    payloadBit r.order m i = some (b.getLsbD (i.toNat % 8)) ∧
    (commandBits r m)[i.toNat]? = some (b.getLsbD (i.toNat % 8))) ∧
  byteBits 1#1 0xC4#8 = [false, false, true, false, false, false, true, true]

/-- R52: a byte at an index at or beyond `NBYTES` is never read: two buffers that agree on the bytes before it give the same
step. -/
def Obligations.BytesBeyondCountNeverRead : Prop :=
  ∀ (s t : State) (m : Memory), PositionInv s.toMachineState → s.phase ≠ .idle →
    (∀ a, a < s.ops.nbytes.toNat → Memory.read m a = Memory.read s.payload a) →
    step s = .next t → step { s with payload := m } = .next { t with payload := m }

/-- The payload decides durations only: two launches of the same descriptor with long enough buffers go through the same
positions, with the same number of requests of the same kinds and the same responses (41_sequencer_phases.md section 6,
"What the source's 'There is no branching' means here", an inference of the spec). -/
def Obligations.PhasesIndependentOfPayload : Prop :=
  ∀ (n : Nat) (s t : State) (d : Descriptor Config.default) (p p' : List Byte),
    Inv s.toMachineState → s.phase = .idle →
    d.operands.nbytes.toNat ≤ p.length →
    d.operands.nbytes.toNat ≤ p'.length →
    stepsTo n { s with hostQueue := [⟨d, p⟩] } t →
    ∃ t', stepsTo n { s with hostQueue := [⟨d, p'⟩] } t' ∧
      t'.phase = t.phase ∧ t'.iter = t.iter ∧ t'.bitidx = t.bitidx ∧ t'.pend = t.pend ∧
      t'.cause = t.cause ∧ t'.hostWait = t.hostWait ∧ t'.responses = t.responses ∧
      t'.trace.map requestModulated = t.trace.map requestModulated

/-- The counts of the train (41_sequencer_phases.md section 8): `3 + 2 * TOTAL` requests an iteration, of which
`1 + 8 * NBYTES` are marks and `2 + 8 * NBYTES` spaces, and `REPEATS + 1` iterations. -/
def Obligations.TrainCounts : Prop :=
  ∀ (cfg : Config) (r : OperandRegs cfg) (m : Memory), r.nbytes.toNat ≤ m.length →
    (iteration r m).length = iterationLength r ∧
    ((iteration r m).filter requestModulated).length = 1 + 8 * r.nbytes.toNat ∧
    ((iteration r m).filter (fun q => !requestModulated q)).length = 2 + 8 * r.nbytes.toNat ∧
    (train r m).length = callLength r

/-- The total duration of the train by the source's formula (41_sequencer_phases.md section 8). -/
def Obligations.TrainDurationFormula : Prop :=
  ∀ (cfg : Config) (r : OperandRegs cfg) (m : Memory), r.nbytes.toNat ≤ m.length →
    totalDuration (train r m) =
      (r.repeats.toNat + 1) *
        (r.hm.toNat + r.hs.toNat + (8 * r.nbytes.toNat) * r.bm.toNat +
          (commandBits r m).count true * r.os.toNat +
          (8 * r.nbytes.toNat - (commandBits r m).count true) * r.zs.toNat + r.gap.toNat)

/-- Decoding one iteration gives the consumed payload back when the two spaces differ (41_sequencer_phases.md section 8). -/
def Obligations.DecodingTrainGivesPayload : Prop :=
  ∀ (cfg : Config) (r : OperandRegs cfg) (m : Memory), r.os ≠ r.zs →
    decodeIteration r (iteration r m) = (m.take r.nbytes.toNat).map (fun c => c.2)

/-- Every mark of a running call carries the latched frequency and duty, the frequency never 0 and the duty never above 100
(R147, R141). -/
def Obligations.MarksCarryValidCarrier : Prop :=
  ∀ (s t : State) (d : BitVec 32) (f : BitVec 32) (c : BitVec 8),
    Inv s.toMachineState → step s = .next t → t.phase ≠ .idle → Request.mark d f c ∈ t.trace →
    f = t.ops.freq ∧ c = t.ops.duty ∧ f ≠ 0#32 ∧ c.toNat ≤ 100

/-- R32: the fields of the status view. -/
def Obligations.StatusViewFields : Prop :=
  ∀ (cfg : Config) (s : MachineState cfg),
    s.status.extractLsb' 7 1 = (if s.phase = .idle then 0#1 else 1#1) ∧
    s.status.extractLsb' 6 1 = (if s.pend = true then 1#1 else 0#1) ∧
    s.status.extractLsb' 3 3 = s.phase.code ∧
    s.status.extractLsb' 0 3 = s.cause.code

/-- What reset leaves, of the values the spec gives (10_state.md section 6): nothing runs, nothing is in flight, no fault is
recorded, nothing is issued, and the host does not wait. -/
def Obligations.ResetLeavesIdle : Prop :=
  State.reset.phase = .idle ∧ State.reset.pend = false ∧ State.reset.cause = .none ∧
  State.reset.busy = false ∧ State.reset.trace = [] ∧ State.reset.hostWait = false

/-- Binding a buffer to the payload port gives a memory in canonical form whose byte `a` is the buffer's byte `a`, for every
index of the port, and none beyond the buffer (R50, R59), on every platform. For a buffer within R7's bound
`plen <= 2^NW` every byte is bound. That of a longer buffer, which R7 does not allow, the first `2^NW` bytes are bound and
the rest is dropped is the model's choice (DESIGN CHOICE), notes/assumptions/9.md; that `NW` is 16 at the fixed names is
notes/assumptions/1.md. -/
def Obligations.BoundBufferReads : Prop :=
  ∀ (cfg : Config) (bs : List Byte) (a : Nat), Memory.wf cfg (Memory.ofBytes cfg bs) = true ∧
    (bs.length ≤ 2 ^ cfg.NW → Memory.read (Memory.ofBytes cfg bs) a = bs[a]?) ∧
    (a < 2 ^ cfg.NW → Memory.read (Memory.ofBytes cfg bs) a = bs[a]?) ∧
    (2 ^ cfg.NW ≤ a → Memory.read (Memory.ofBytes cfg bs) a = none)

/-- The host's call as the source writes it is the launch of one legal `TRANSMIT` with the arguments in its fields, as a
record on every platform and in words at the default widths; the four-argument form means MSB first (30_encoding.md
section 5). -/
def Obligations.HostCallIsOneTransmit : Prop :=
  (∀ (p : TimingProfile Config.default) (bs : List Byte) (n : BitVec 16) (k : BitVec 16) (o : BitOrder),
    decode (.cmd (transmitCall p bs n k o).words) =
      .ok (.transmit ⟨0x01#8, 0#15,
        ⟨p.headerMark, p.headerSpace, p.bitMark, p.oneSpace, p.zeroSpace, p.gap, p.freq, p.duty, n, k,
          if o = .msb then 0#1 else 1#1⟩⟩)) ∧
  (∀ (cfg : Config) (p : TimingProfile cfg) (bs : List Byte) (n : BitVec cfg.NW) (k : BitVec cfg.RW),
    (∀ o : BitOrder, transmitCall p bs n k o =
      ⟨⟨0x01#8, 0#15,
        ⟨p.headerMark, p.headerSpace, p.bitMark, p.oneSpace, p.zeroSpace, p.gap, p.freq, p.duty, n, k,
          if o = .msb then 0#1 else 1#1⟩⟩, bs⟩) ∧
    transmitCall p bs n k = transmitCall p bs n k .msb ∧
    sendProtocol p n bs k = transmitCall p bs n k .msb)

/-- The fixed names are the default platform: a run of `step` is a run of `stepOn Config.default` on the records, and a step
of the one faults where the other does. The words between the agents and their decoder lose nothing (R7, R85,
92_eei_decisions.md D5 and D8; notes/assumptions/14.md). -/
def Obligations.RunsAreDefaultPlatformRuns : Prop :=
  (∀ (n : Nat) (s t : State), stepsTo n s t ↔ stepsOn Config.default n s.toMachineState t.toMachineState) ∧
  (∀ (s : State) (e : Fault), step s = .fault e ↔ stepOn Config.default s.toMachineState = .fault e) ∧
  (∀ s : State, reachable s ↔ reachableOn Config.default s.toMachineState)

/-- On every platform, every step keeps the invariant, from every state that has it. -/
def Obligations.PlatformStepKeepsInv : Prop :=
  ∀ (cfg : Config) (s t : MachineState cfg), Inv s → stepOn cfg s = .next t → Inv t

/-- On every platform, every reachable state has the position invariant (10_state.md section 3, "Position invariant", an
inference of the spec). -/
def Obligations.PlatformReachableStatesHavePositionInv : Prop :=
  ∀ (cfg : Config) (s : MachineState cfg), reachableOn cfg s → PositionInv s

/-- On every platform, while a call with a long enough payload runs, every step keeps `TRACE` the part of the train up to the
position (41_sequencer_phases.md section 8). -/
def Obligations.PlatformStepKeepsTraceInv : Prop :=
  ∀ (cfg : Config) (s t : MachineState cfg), Inv s → TraceInv s → stepOn cfg s = .next t → TraceInv t

/-- On every platform, a launch whose descriptor is acceptable there and all of whose requests are answered `OK` ends with
response 0 and exactly the train as `TRACE` (40_transmit_command.md section 2, 41_sequencer_phases.md section 8, inferences
of the spec). That
the `TRANSMIT` step also binds the buffer and takes the launch off the host's list is the model's choice (DESIGN CHOICE),
notes/assumptions/9.md. -/
def Obligations.PlatformCallEmitsWholeTrain : Prop :=
  ∀ (cfg : Config) (s : MachineState cfg) (l : Launch cfg) (queue : List (Launch cfg)) (answers : List Answer),
    idlePremise s → s.hostQueue = l :: queue → acceptable cfg l.desc →
    l.desc.operands.nbytes.toNat ≤ l.payload.length →
    s.drvAnswers = List.replicate (callLength l.desc.operands) .ok ++ answers →
    ∃ t, stepsOn cfg (1 + 2 * callLength l.desc.operands) s t ∧
      t.trace = train l.desc.operands (Memory.ofBytes cfg l.payload) ∧
      t.responses = s.responses ++ [.none] ∧ t.phase = .idle ∧ t.pend = false ∧ t.cause = .none ∧
      t.hostWait = false ∧ t.ops = l.desc.operands ∧ t.payload = Memory.ofBytes cfg l.payload ∧
      t.hostQueue = queue ∧ t.drvAnswers = answers

/-- On every platform, the same launch with `FAULT` as the answer to request number `k + 1` ends with response 4 and the first
`k + 1` requests of the train as `TRACE` (41_sequencer_phases.md section 8, an inference of the spec). That
the `TRANSMIT` step also binds the buffer and takes the launch off the host's list is the model's choice (DESIGN CHOICE),
notes/assumptions/9.md. -/
def Obligations.PlatformFaultedCallEmitsPrefix : Prop :=
  ∀ (cfg : Config) (s : MachineState cfg) (l : Launch cfg) (queue : List (Launch cfg)) (answers : List Answer) (k : Nat),
    idlePremise s → s.hostQueue = l :: queue → acceptable cfg l.desc →
    l.desc.operands.nbytes.toNat ≤ l.payload.length →
    k < callLength l.desc.operands →
    s.drvAnswers = List.replicate k .ok ++ .fault :: answers →
    ∃ t, stepsOn cfg (1 + 2 * (k + 1)) s t ∧
      t.trace = (train l.desc.operands (Memory.ofBytes cfg l.payload)).take (k + 1) ∧
      t.responses = s.responses ++ [.drvFault] ∧ t.phase = .idle ∧ t.pend = false ∧ t.cause = .drvFault ∧
      t.hostWait = false ∧ t.ops = l.desc.operands ∧ t.hostQueue = queue ∧ t.drvAnswers = answers

/-- On every platform, a step in which the host sends a legal descriptor that fails the check answers the first failing
check's code at once: `CFG_FREQ` (R152), `CFG_DUTY` (R153), and, where the platform narrows the timings, `CFG_TIMING`
(R154); no request is issued. That this step binds the buffer and takes the launch off the host's list is the model's choice
(DESIGN CHOICE), notes/assumptions/9.md. -/
def Obligations.PlatformAnswersConfigurationFaults : Prop :=
  ∀ (cfg : Config) (s : MachineState cfg) (l : Launch cfg) (rest : List (Launch cfg)) (c : Cause),
    s.pend = false → s.phase = .idle → s.hostWait = false → s.hostQueue = l :: rest →
    l.desc.op = 0x01#8 → l.desc.reserved = 0#15 →
    ((cfg.freqValid l.desc.operands.freq = false ∧ c = .cfgFreq) ∨
     (cfg.freqValid l.desc.operands.freq = true ∧ 100 < l.desc.operands.duty.toNat ∧ c = .cfgDuty) ∨
     (cfg.freqValid l.desc.operands.freq = true ∧ l.desc.operands.duty.toNat ≤ 100 ∧
      cfg.durValid l.desc.operands.hm l.desc.operands.hs l.desc.operands.bm l.desc.operands.os
        l.desc.operands.zs l.desc.operands.gap = false ∧ c = .cfgTiming)) →
    stepOn cfg s = .next { s with payload := Memory.ofBytes cfg l.payload, hostQueue := rest, ops := l.desc.operands,
                                  trace := [], cause := c, responses := s.responses ++ [c] }

/-- On every platform, the two steps of a phase at every width: the issue step hands over the timing mux's request (R114), and
the completion step on `OK` goes on to the next position by natural-number arithmetic (R115 to R122), from every state with
the invariant. -/
def Obligations.PlatformIssueAndCompletion : Prop :=
  ∀ (cfg : Config) (s : MachineState cfg), Inv s →
    (∀ q, s.pend = false → timingMux s = some q →
      stepOn cfg s = .next { s with trace := s.trace ++ [q], drvChan := some q, pend := true }) ∧
    (∀ rest, s.pend = true → s.drvAnswers = .ok :: rest →
      ∃ t, stepOn cfg s = .next t ∧ t.pend = false ∧ t.drvChan = none ∧ t.drvAnswers = rest ∧
        t.ops = s.ops ∧ t.payload = s.payload ∧ t.trace = s.trace ∧ t.cause = s.cause ∧ t.hostQueue = s.hostQueue ∧
        (s.phase = .headerMark →
          t.phase = .headerSpace ∧ t.iter = s.iter ∧ t.bitidx = s.bitidx ∧ t.responses = s.responses) ∧
        (s.phase = .headerSpace →
          t.phase = (if s.ops.nbytes.toNat = 0 then .gap else .bitMark) ∧
          t.iter = s.iter ∧ t.bitidx = s.bitidx ∧ t.responses = s.responses) ∧
        (s.phase = .bitMark →
          t.phase = .bitSpace ∧ t.iter = s.iter ∧ t.bitidx = s.bitidx ∧ t.responses = s.responses) ∧
        (s.phase = .bitSpace →
          (if s.bitidx.toNat + 1 < 8 * s.ops.nbytes.toNat then
            t.phase = .bitMark ∧ t.bitidx.toNat = s.bitidx.toNat + 1
          else t.phase = .gap ∧ t.bitidx = s.bitidx) ∧ t.iter = s.iter ∧ t.responses = s.responses) ∧
        (s.phase = .gap →
          if s.iter.toNat < s.ops.repeats.toNat then
            t.phase = .headerMark ∧ t.iter.toNat = s.iter.toNat + 1 ∧ t.bitidx = 0 ∧ t.responses = s.responses
          else t.phase = .idle ∧ t.iter = s.iter ∧ t.bitidx = s.bitidx ∧ t.hostWait = false ∧
            t.responses = s.responses ++ [.none]))

/-- The two counters never wrap, at any widths (10_state.md R26, R27, 41_sequencer_phases.md section 9, inferences of the
spec): a step from a state with the invariant changes each to zero or to its next number, or not at all. -/
def Obligations.CountersNeverWrap : Prop :=
  ∀ (cfg : Config) (s t : MachineState cfg), Inv s → stepOn cfg s = .next t →
    (t.iter = s.iter ∨ t.iter.toNat = s.iter.toNat + 1 ∨ (s.phase = .idle ∧ t.iter.toNat = 0)) ∧
    (t.bitidx = s.bitidx ∨ (s.phase = .bitSpace ∧ t.bitidx.toNat = s.bitidx.toNat + 1) ∨
      (t.phase = .headerMark ∧ t.bitidx.toNat = 0))
end

