-- ==== Sys2Proof/Laws/Memory.lean ====
section
/-! SUPPORT. The payload memory: its canonical form, what a read of it gives, and that every operation that binds a buffer
keeps the form. -/

namespace Sys2Proof.Machine

variable {cfg : Config}

theorem cellsFrom_length (k : Nat) (bs : List Byte) : (Memory.cellsFrom k bs).length = bs.length := by
  induction bs generalizing k with
  | nil => rfl
  | cons b bs ih => simp [Memory.cellsFrom, ih]

theorem cellsFrom_addresses (k : Nat) (bs : List Byte) :
    (Memory.cellsFrom k bs).map (fun c => c.1) = List.range' k bs.length := by
  induction bs generalizing k with
  | nil => rfl
  | cons b bs ih => simp [Memory.cellsFrom, ih, List.range'_succ]

theorem cellsFrom_bytes (k : Nat) (bs : List Byte) : (Memory.cellsFrom k bs).map (fun c => c.2) = bs := by
  induction bs generalizing k with
  | nil => rfl
  | cons b bs ih => simp [Memory.cellsFrom, ih]

/-- A memory in canonical form is the cells of its own bytes. -/
theorem cellsFrom_of_addresses (k : Nat) (m : Memory)
    (h : m.map (fun c => c.1) = List.range' k m.length) : Memory.cellsFrom k (m.map (fun c => c.2)) = m := by
  induction m generalizing k with
  | nil => rfl
  | cons c m ih =>
    simp only [List.map_cons, List.length_cons, List.range'_succ, List.cons.injEq] at h
    obtain ⟨rfl, h⟩ := h
    simp only [List.map_cons, Memory.cellsFrom, ih (c.1 + 1) h]

theorem read_cellsFrom (k a : Nat) (bs : List Byte) :
    Memory.read (Memory.cellsFrom k bs) a = if k ≤ a then bs[a - k]? else none := by
  induction bs generalizing k with
  | nil => simp [Memory.cellsFrom, Memory.read]
  | cons b bs ih =>
    simp only [Memory.cellsFrom, Memory.read, ih]
    rcases Nat.lt_trichotomy k a with h | h | h
    · rw [if_neg (by omega), if_pos (by omega), if_pos (by omega), show a - k = (a - (k + 1)) + 1 by omega,
        List.getElem?_cons_succ]
    · simp [h]
    · rw [if_neg (by omega), if_neg (by omega), if_neg (by omega)]

theorem wf_iff (m : Memory) : Memory.wf cfg m = true ↔
    m.map (fun c => c.1) = List.range m.length ∧ m.length ≤ 2 ^ cfg.NW := by
  simp [Memory.wf]

/-- A read of a memory in canonical form gives the cell at that place of the list. -/
theorem read_of_wf {m : Memory} (h : Memory.wf cfg m = true) (a : Nat) :
    Memory.read m a = (m.map (fun c => c.2))[a]? := by
  obtain ⟨ha, -⟩ := (wf_iff m).mp h
  rw [List.range_eq_range'] at ha
  conv_lhs => rw [← cellsFrom_of_addresses 0 m ha]
  rw [read_cellsFrom]
  simp

/-- In canonical form a byte has a value exactly below `plen` (20_memory.md R55). -/
theorem read_eq_none_iff {m : Memory} (h : Memory.wf cfg m = true) (a : Nat) :
    Memory.read m a = none ↔ m.length ≤ a := by
  rw [read_of_wf h, List.getElem?_eq_none_iff, List.length_map]

theorem wf_ofBytes (bs : List Byte) : Memory.wf cfg (Memory.ofBytes cfg bs) = true := by
  rw [wf_iff, Memory.ofBytes, cellsFrom_addresses, cellsFrom_length, List.range_eq_range']
  exact ⟨rfl, by simp⟩

theorem ofBytes_length (bs : List Byte) :
    (Memory.ofBytes cfg bs).length = min (2 ^ cfg.NW) bs.length := by
  rw [Memory.ofBytes, cellsFrom_length, List.length_take]

theorem hostSends_keeps_wf (l : Launch cfg) (rest : List (Launch cfg)) (s : MachineState cfg) :
    Memory.wf cfg (hostSends l rest s).payload = true := wf_ofBytes l.payload

theorem ensureByte_keeps_wf (i : BitVec (cfg.NW + 3)) {m : Memory} (h : Memory.wf cfg m = true) :
    Memory.wf cfg (ensureByte cfg i m) = true := by
  unfold ensureByte
  split
  · exact h
  · exact wf_ofBytes _

end Sys2Proof.Machine
end

