-- ==== Sys2Proof/Laws/State.lean ====
section
/-! SUPPORT. One lemma for each field of the state under each unconditional update, so that no later proof unfolds a record
update. -/

namespace Sys2Proof.Machine

variable {cfg : Config}

@[simp] theorem respond_ops (c : Cause) (s : MachineState cfg) : (respond c s).ops = s.ops := rfl
@[simp] theorem respond_phase (c : Cause) (s : MachineState cfg) : (respond c s).phase = s.phase := rfl
@[simp] theorem respond_iter (c : Cause) (s : MachineState cfg) : (respond c s).iter = s.iter := rfl
@[simp] theorem respond_bitidx (c : Cause) (s : MachineState cfg) : (respond c s).bitidx = s.bitidx := rfl
@[simp] theorem respond_pend (c : Cause) (s : MachineState cfg) : (respond c s).pend = s.pend := rfl
@[simp] theorem respond_cause (c : Cause) (s : MachineState cfg) : (respond c s).cause = s.cause := rfl
@[simp] theorem respond_payload (c : Cause) (s : MachineState cfg) : (respond c s).payload = s.payload := rfl
@[simp] theorem respond_hostWait (c : Cause) (s : MachineState cfg) : (respond c s).hostWait = false := rfl
@[simp] theorem respond_hostQueue (c : Cause) (s : MachineState cfg) : (respond c s).hostQueue = s.hostQueue := rfl
@[simp] theorem respond_drvChan (c : Cause) (s : MachineState cfg) : (respond c s).drvChan = s.drvChan := rfl
@[simp] theorem respond_drvAnswers (c : Cause) (s : MachineState cfg) : (respond c s).drvAnswers = s.drvAnswers := rfl
@[simp] theorem respond_trace (c : Cause) (s : MachineState cfg) : (respond c s).trace = s.trace := rfl
@[simp] theorem respond_responses (c : Cause) (s : MachineState cfg) : (respond c s).responses = s.responses ++ [c] := rfl

@[simp] theorem raise_ops (c : Cause) (s : MachineState cfg) : (raise c s).ops = s.ops := rfl
@[simp] theorem raise_phase (c : Cause) (s : MachineState cfg) : (raise c s).phase = .idle := rfl
@[simp] theorem raise_iter (c : Cause) (s : MachineState cfg) : (raise c s).iter = s.iter := rfl
@[simp] theorem raise_bitidx (c : Cause) (s : MachineState cfg) : (raise c s).bitidx = s.bitidx := rfl
@[simp] theorem raise_pend (c : Cause) (s : MachineState cfg) : (raise c s).pend = false := rfl
@[simp] theorem raise_cause (c : Cause) (s : MachineState cfg) : (raise c s).cause = c := rfl
@[simp] theorem raise_payload (c : Cause) (s : MachineState cfg) : (raise c s).payload = s.payload := rfl
@[simp] theorem raise_hostWait (c : Cause) (s : MachineState cfg) : (raise c s).hostWait = false := rfl
@[simp] theorem raise_hostQueue (c : Cause) (s : MachineState cfg) : (raise c s).hostQueue = s.hostQueue := rfl
@[simp] theorem raise_drvChan (c : Cause) (s : MachineState cfg) : (raise c s).drvChan = s.drvChan := rfl
@[simp] theorem raise_drvAnswers (c : Cause) (s : MachineState cfg) : (raise c s).drvAnswers = s.drvAnswers := rfl
@[simp] theorem raise_trace (c : Cause) (s : MachineState cfg) : (raise c s).trace = s.trace := rfl
@[simp] theorem raise_responses (c : Cause) (s : MachineState cfg) : (raise c s).responses = s.responses ++ [c] := rfl

@[simp] theorem issue_ops (q : Request cfg) (s : MachineState cfg) : (issue q s).ops = s.ops := rfl
@[simp] theorem issue_phase (q : Request cfg) (s : MachineState cfg) : (issue q s).phase = s.phase := rfl
@[simp] theorem issue_iter (q : Request cfg) (s : MachineState cfg) : (issue q s).iter = s.iter := rfl
@[simp] theorem issue_bitidx (q : Request cfg) (s : MachineState cfg) : (issue q s).bitidx = s.bitidx := rfl
@[simp] theorem issue_pend (q : Request cfg) (s : MachineState cfg) : (issue q s).pend = true := rfl
@[simp] theorem issue_cause (q : Request cfg) (s : MachineState cfg) : (issue q s).cause = s.cause := rfl
@[simp] theorem issue_payload (q : Request cfg) (s : MachineState cfg) : (issue q s).payload = s.payload := rfl
@[simp] theorem issue_hostWait (q : Request cfg) (s : MachineState cfg) : (issue q s).hostWait = s.hostWait := rfl
@[simp] theorem issue_hostQueue (q : Request cfg) (s : MachineState cfg) : (issue q s).hostQueue = s.hostQueue := rfl
@[simp] theorem issue_drvChan (q : Request cfg) (s : MachineState cfg) : (issue q s).drvChan = some q := rfl
@[simp] theorem issue_drvAnswers (q : Request cfg) (s : MachineState cfg) : (issue q s).drvAnswers = s.drvAnswers := rfl
@[simp] theorem issue_trace (q : Request cfg) (s : MachineState cfg) : (issue q s).trace = s.trace ++ [q] := rfl
@[simp] theorem issue_responses (q : Request cfg) (s : MachineState cfg) : (issue q s).responses = s.responses := rfl

@[simp] theorem clearTrace_ops (s : MachineState cfg) : (clearTrace s).ops = s.ops := rfl
@[simp] theorem clearTrace_phase (s : MachineState cfg) : (clearTrace s).phase = s.phase := rfl
@[simp] theorem clearTrace_iter (s : MachineState cfg) : (clearTrace s).iter = s.iter := rfl
@[simp] theorem clearTrace_bitidx (s : MachineState cfg) : (clearTrace s).bitidx = s.bitidx := rfl
@[simp] theorem clearTrace_pend (s : MachineState cfg) : (clearTrace s).pend = s.pend := rfl
@[simp] theorem clearTrace_cause (s : MachineState cfg) : (clearTrace s).cause = s.cause := rfl
@[simp] theorem clearTrace_payload (s : MachineState cfg) : (clearTrace s).payload = s.payload := rfl
@[simp] theorem clearTrace_hostWait (s : MachineState cfg) : (clearTrace s).hostWait = s.hostWait := rfl
@[simp] theorem clearTrace_hostQueue (s : MachineState cfg) : (clearTrace s).hostQueue = s.hostQueue := rfl
@[simp] theorem clearTrace_drvChan (s : MachineState cfg) : (clearTrace s).drvChan = s.drvChan := rfl
@[simp] theorem clearTrace_drvAnswers (s : MachineState cfg) : (clearTrace s).drvAnswers = s.drvAnswers := rfl
@[simp] theorem clearTrace_trace (s : MachineState cfg) : (clearTrace s).trace = [] := rfl
@[simp] theorem clearTrace_responses (s : MachineState cfg) : (clearTrace s).responses = s.responses := rfl

@[simp] theorem latch_ops (d : Descriptor cfg) (s : MachineState cfg) : (latch d s).ops = d.operands := rfl
@[simp] theorem latch_phase (d : Descriptor cfg) (s : MachineState cfg) : (latch d s).phase = s.phase := rfl
@[simp] theorem latch_iter (d : Descriptor cfg) (s : MachineState cfg) : (latch d s).iter = s.iter := rfl
@[simp] theorem latch_bitidx (d : Descriptor cfg) (s : MachineState cfg) : (latch d s).bitidx = s.bitidx := rfl
@[simp] theorem latch_pend (d : Descriptor cfg) (s : MachineState cfg) : (latch d s).pend = s.pend := rfl
@[simp] theorem latch_cause (d : Descriptor cfg) (s : MachineState cfg) : (latch d s).cause = s.cause := rfl
@[simp] theorem latch_payload (d : Descriptor cfg) (s : MachineState cfg) : (latch d s).payload = s.payload := rfl
@[simp] theorem latch_hostWait (d : Descriptor cfg) (s : MachineState cfg) : (latch d s).hostWait = s.hostWait := rfl
@[simp] theorem latch_hostQueue (d : Descriptor cfg) (s : MachineState cfg) : (latch d s).hostQueue = s.hostQueue := rfl
@[simp] theorem latch_drvChan (d : Descriptor cfg) (s : MachineState cfg) : (latch d s).drvChan = s.drvChan := rfl
@[simp] theorem latch_drvAnswers (d : Descriptor cfg) (s : MachineState cfg) : (latch d s).drvAnswers = s.drvAnswers := rfl
@[simp] theorem latch_trace (d : Descriptor cfg) (s : MachineState cfg) : (latch d s).trace = s.trace := rfl
@[simp] theorem latch_responses (d : Descriptor cfg) (s : MachineState cfg) : (latch d s).responses = s.responses := rfl

@[simp] theorem startCall_ops (s : MachineState cfg) : (startCall s).ops = s.ops := rfl
@[simp] theorem startCall_phase (s : MachineState cfg) : (startCall s).phase = .headerMark := rfl
@[simp] theorem startCall_iter (s : MachineState cfg) : (startCall s).iter = 0 := rfl
@[simp] theorem startCall_bitidx (s : MachineState cfg) : (startCall s).bitidx = 0 := rfl
@[simp] theorem startCall_pend (s : MachineState cfg) : (startCall s).pend = false := rfl
@[simp] theorem startCall_cause (s : MachineState cfg) : (startCall s).cause = .none := rfl
@[simp] theorem startCall_payload (s : MachineState cfg) : (startCall s).payload = s.payload := rfl
@[simp] theorem startCall_hostWait (s : MachineState cfg) : (startCall s).hostWait = true := rfl
@[simp] theorem startCall_hostQueue (s : MachineState cfg) : (startCall s).hostQueue = s.hostQueue := rfl
@[simp] theorem startCall_drvChan (s : MachineState cfg) : (startCall s).drvChan = s.drvChan := rfl
@[simp] theorem startCall_drvAnswers (s : MachineState cfg) : (startCall s).drvAnswers = s.drvAnswers := rfl
@[simp] theorem startCall_trace (s : MachineState cfg) : (startCall s).trace = [] := rfl
@[simp] theorem startCall_responses (s : MachineState cfg) : (startCall s).responses = s.responses := rfl

@[simp] theorem headerMarkNext_ops (s : MachineState cfg) : (headerMarkNext s).ops = s.ops := rfl
@[simp] theorem headerMarkNext_phase (s : MachineState cfg) : (headerMarkNext s).phase = .headerSpace := rfl
@[simp] theorem headerMarkNext_iter (s : MachineState cfg) : (headerMarkNext s).iter = s.iter := rfl
@[simp] theorem headerMarkNext_bitidx (s : MachineState cfg) : (headerMarkNext s).bitidx = s.bitidx := rfl
@[simp] theorem headerMarkNext_pend (s : MachineState cfg) : (headerMarkNext s).pend = s.pend := rfl
@[simp] theorem headerMarkNext_cause (s : MachineState cfg) : (headerMarkNext s).cause = s.cause := rfl
@[simp] theorem headerMarkNext_payload (s : MachineState cfg) : (headerMarkNext s).payload = s.payload := rfl
@[simp] theorem headerMarkNext_hostWait (s : MachineState cfg) : (headerMarkNext s).hostWait = s.hostWait := rfl
@[simp] theorem headerMarkNext_hostQueue (s : MachineState cfg) : (headerMarkNext s).hostQueue = s.hostQueue := rfl
@[simp] theorem headerMarkNext_drvChan (s : MachineState cfg) : (headerMarkNext s).drvChan = s.drvChan := rfl
@[simp] theorem headerMarkNext_drvAnswers (s : MachineState cfg) : (headerMarkNext s).drvAnswers = s.drvAnswers := rfl
@[simp] theorem headerMarkNext_trace (s : MachineState cfg) : (headerMarkNext s).trace = s.trace := rfl
@[simp] theorem headerMarkNext_responses (s : MachineState cfg) : (headerMarkNext s).responses = s.responses := rfl

@[simp] theorem bitMarkNext_ops (s : MachineState cfg) : (bitMarkNext s).ops = s.ops := rfl
@[simp] theorem bitMarkNext_phase (s : MachineState cfg) : (bitMarkNext s).phase = .bitSpace := rfl
@[simp] theorem bitMarkNext_iter (s : MachineState cfg) : (bitMarkNext s).iter = s.iter := rfl
@[simp] theorem bitMarkNext_bitidx (s : MachineState cfg) : (bitMarkNext s).bitidx = s.bitidx := rfl
@[simp] theorem bitMarkNext_pend (s : MachineState cfg) : (bitMarkNext s).pend = s.pend := rfl
@[simp] theorem bitMarkNext_cause (s : MachineState cfg) : (bitMarkNext s).cause = s.cause := rfl
@[simp] theorem bitMarkNext_payload (s : MachineState cfg) : (bitMarkNext s).payload = s.payload := rfl
@[simp] theorem bitMarkNext_hostWait (s : MachineState cfg) : (bitMarkNext s).hostWait = s.hostWait := rfl
@[simp] theorem bitMarkNext_hostQueue (s : MachineState cfg) : (bitMarkNext s).hostQueue = s.hostQueue := rfl
@[simp] theorem bitMarkNext_drvChan (s : MachineState cfg) : (bitMarkNext s).drvChan = s.drvChan := rfl
@[simp] theorem bitMarkNext_drvAnswers (s : MachineState cfg) : (bitMarkNext s).drvAnswers = s.drvAnswers := rfl
@[simp] theorem bitMarkNext_trace (s : MachineState cfg) : (bitMarkNext s).trace = s.trace := rfl
@[simp] theorem bitMarkNext_responses (s : MachineState cfg) : (bitMarkNext s).responses = s.responses := rfl

@[simp] theorem hostSends_ops (l : Launch cfg) (rest : List (Launch cfg)) (s : MachineState cfg) : (hostSends l rest s).ops = s.ops := rfl
@[simp] theorem hostSends_phase (l : Launch cfg) (rest : List (Launch cfg)) (s : MachineState cfg) : (hostSends l rest s).phase = s.phase := rfl
@[simp] theorem hostSends_iter (l : Launch cfg) (rest : List (Launch cfg)) (s : MachineState cfg) : (hostSends l rest s).iter = s.iter := rfl
@[simp] theorem hostSends_bitidx (l : Launch cfg) (rest : List (Launch cfg)) (s : MachineState cfg) : (hostSends l rest s).bitidx = s.bitidx := rfl
@[simp] theorem hostSends_pend (l : Launch cfg) (rest : List (Launch cfg)) (s : MachineState cfg) : (hostSends l rest s).pend = s.pend := rfl
@[simp] theorem hostSends_cause (l : Launch cfg) (rest : List (Launch cfg)) (s : MachineState cfg) : (hostSends l rest s).cause = s.cause := rfl
@[simp] theorem hostSends_payload (l : Launch cfg) (rest : List (Launch cfg)) (s : MachineState cfg) : (hostSends l rest s).payload = Memory.ofBytes cfg l.payload := rfl
@[simp] theorem hostSends_hostWait (l : Launch cfg) (rest : List (Launch cfg)) (s : MachineState cfg) : (hostSends l rest s).hostWait = s.hostWait := rfl
@[simp] theorem hostSends_hostQueue (l : Launch cfg) (rest : List (Launch cfg)) (s : MachineState cfg) : (hostSends l rest s).hostQueue = rest := rfl
@[simp] theorem hostSends_drvChan (l : Launch cfg) (rest : List (Launch cfg)) (s : MachineState cfg) : (hostSends l rest s).drvChan = s.drvChan := rfl
@[simp] theorem hostSends_drvAnswers (l : Launch cfg) (rest : List (Launch cfg)) (s : MachineState cfg) : (hostSends l rest s).drvAnswers = s.drvAnswers := rfl
@[simp] theorem hostSends_trace (l : Launch cfg) (rest : List (Launch cfg)) (s : MachineState cfg) : (hostSends l rest s).trace = s.trace := rfl
@[simp] theorem hostSends_responses (l : Launch cfg) (rest : List (Launch cfg)) (s : MachineState cfg) : (hostSends l rest s).responses = s.responses := rfl

end Sys2Proof.Machine
end

