-- ==== Sys2Proof/Laws/Ops.lean ====
section
/-! SUPPORT. For each shared operation, everything it can do: one lemma each, which later proofs cite instead of unfolding. -/

namespace Sys2Proof.Machine

variable {cfg : Config}

/-- The configuration check passes exactly when its three checks do (R103). -/
theorem configFault_eq_none_iff (r : OperandRegs cfg) : configFault cfg r = none ↔
    cfg.freqValid r.freq = true ∧ ¬ Config.dutyMax < r.duty ∧
      cfg.durValid r.hm r.hs r.bm r.os r.zs r.gap = true := by
  unfold configFault
  split <;> rename_i h1 <;> [simp [h1]; skip]
  split <;> rename_i h2 <;> [simp [h2]; skip]
  split <;> rename_i h3 <;> simp_all

/-- With the default predicates: a nonzero frequency and a duty of at most 100 (R103). -/
theorem configFault_default_eq_none_iff (r : OperandRegs Config.default) : configFault Config.default r = none ↔
    r.freq ≠ 0#32 ∧ ¬ Config.dutyMax < r.duty := by
  rw [configFault_eq_none_iff]
  simp [Config.default]

theorem legalDescriptor_iff (d : Descriptor cfg) :
    legalDescriptor d = true ↔ d.op = opTransmit ∧ d.reserved = 0#15 := by
  simp [legalDescriptor]

theorem checkAndStart_cases (s : MachineState cfg) :
    (∃ c, configFault cfg s.ops = some c ∧ checkAndStart cfg s = raise c s) ∨
    (configFault cfg s.ops = none ∧ checkAndStart cfg s = startCall s) := by
  unfold checkAndStart
  cases h : configFault cfg s.ops with
  | some c => exact .inl ⟨c, rfl, rfl⟩
  | none => exact .inr ⟨rfl, rfl⟩

theorem acceptDescriptor_cases (d : Descriptor cfg) (s : MachineState cfg) :
    (legalDescriptor d = false ∧ acceptDescriptor cfg d s = raise .cmdIllegal (clearTrace s)) ∨
    (∃ c, legalDescriptor d = true ∧ configFault cfg d.operands = some c ∧
      acceptDescriptor cfg d s = raise c (latch d (clearTrace s))) ∨
    (legalDescriptor d = true ∧ configFault cfg d.operands = none ∧
      acceptDescriptor cfg d s = startCall (latch d (clearTrace s))) := by
  unfold acceptDescriptor
  cases hl : legalDescriptor d with
  | false => exact .inl ⟨rfl, rfl⟩
  | true =>
    obtain ⟨c, hc, he⟩ | ⟨hc, he⟩ := checkAndStart_cases (latch d (clearTrace s))
    · exact .inr (.inl ⟨c, rfl, hc, he⟩)
    · exact .inr (.inr ⟨rfl, hc, he⟩)

/-- Everything a `TRANSMIT` step can do (R101). -/
theorem transmit_cases {d : Descriptor cfg} {s t : MachineState cfg} (h : transmit cfg d s = .next t) :
    s.phase = .idle ∧ s.hostWait = false ∧ t = acceptDescriptor cfg d s := by
  unfold transmit at h
  split at h
  · rename_i hs
    exact ⟨hs.1, hs.2, (Host.Outcome.next.inj h).symm⟩
  · cases h

/-- Everything a completion step can do (R115, R145, R157). -/
theorem complete_cases (nxt : MachineState cfg → MachineState cfg) (s : MachineState cfg) :
    (s.drvAnswers = [] ∧ complete nxt s = s) ∨
    (∃ rest, s.drvAnswers = .ok :: rest ∧
      complete nxt s = nxt { s with drvAnswers := rest, drvChan := none, pend := false }) ∨
    (∃ rest, s.drvAnswers = .fault :: rest ∧
      complete nxt s = raise .drvFault { s with drvAnswers := rest, drvChan := none, pend := false }) := by
  unfold complete
  split <;> simp_all

/-- Everything a phase operation can do (R114, R115). -/
theorem phaseOperation_cases {p : Phase} {req : Option (Request cfg)} {nxt : MachineState cfg → MachineState cfg} {s t : MachineState cfg}
    (h : phaseOperation p req nxt s = .next t) :
    s.phase = p ∧ ((s.pend = true ∧ t = complete nxt s) ∨
      ∃ q, s.pend = false ∧ req = some q ∧ t = issue q s) := by
  unfold phaseOperation at h
  split at h
  · rename_i hp
    refine ⟨hp, ?_⟩
    split at h
    · rename_i hb
      exact .inl ⟨hb, (Host.Outcome.next.inj h).symm⟩
    · rename_i hb
      split at h
      · rename_i q
        exact .inr ⟨q, by simpa using hb, rfl, (Host.Outcome.next.inj h).symm⟩
      · cases h
  · cases h

theorem headerSpaceNext_cases (s : MachineState cfg) :
    (s.ops.nbytes = 0 ∧ headerSpaceNext s = { s with phase := .gap }) ∨
    (s.ops.nbytes ≠ 0 ∧ headerSpaceNext s = { s with phase := .bitMark }) := by
  unfold headerSpaceNext
  split <;> simp_all

theorem bitSpaceNext_cases (s : MachineState cfg) :
    (s.bitidx + 1 < totalBits s.ops ∧
      bitSpaceNext s = { s with bitidx := s.bitidx + 1, phase := .bitMark }) ∨
    (¬ s.bitidx + 1 < totalBits s.ops ∧ bitSpaceNext s = { s with phase := .gap }) := by
  unfold bitSpaceNext
  split <;> simp_all

theorem gapNext_cases (s : MachineState cfg) :
    (s.iter < s.ops.repeats ∧
      gapNext s = { s with iter := s.iter + 1, bitidx := 0, phase := .headerMark }) ∨
    (¬ s.iter < s.ops.repeats ∧ gapNext s = respond .none { s with phase := .idle }) := by
  unfold gapNext
  split <;> simp_all

/-- `TOTAL` as a number (R111). -/
theorem totalBits_toNat (r : OperandRegs cfg) : (totalBits r).toNat = 8 * r.nbytes.toNat := by
  simp only [totalBits, BitVec.toNat_append, BitVec.toNat_ofNat]
  rw [← Nat.shiftLeft_add_eq_or_of_lt (by decide)]
  simp [Nat.shiftLeft_eq, Nat.mul_comm]

/-- The byte index as a number (R112). -/
theorem byteIndex_toNat {nw : Nat} (i : BitVec (nw + 3)) : (byteIndex i).toNat = i.toNat / 8 := by
  have h := i.isLt
  rw [Nat.pow_add] at h
  rw [byteIndex, BitVec.extractLsb'_toNat, Nat.shiftRight_eq_div_pow, Nat.mod_eq_of_lt (by omega)]

/-- The place in the byte as a number (R112). -/
theorem bitInByte_toNat {nw : Nat} (i : BitVec (nw + 3)) : (bitInByte i).toNat = i.toNat % 8 := by
  simp [bitInByte, BitVec.extractLsb'_toNat]

end Sys2Proof.Machine
end

