-- ==== Sys2Proof/Laws/Step.lean ====
section
/-! SUPPORT. What the decoder reads from the messages of the machine itself, everything one step can do on any platform, and
that `step` is the step of the default platform. -/

namespace Sys2Proof.Machine

variable {cfg : Config}

theorem decode_phase_headerMark : decode (.phase Phase.headerMark.code) = .ok .headerMark := rfl
theorem decode_phase_headerSpace : decode (.phase Phase.headerSpace.code) = .ok .headerSpace := rfl
theorem decode_phase_bitMark : decode (.phase Phase.bitMark.code) = .ok .bitMark := rfl
theorem decode_phase_bitSpace : decode (.phase Phase.bitSpace.code) = .ok .bitSpace := rfl
theorem decode_phase_gap : decode (.phase Phase.gap.code) = .ok .gap := rfl

/-- The operation a request is for the driver. -/
def requestInstr : Request Config.default → Instr
  | .mark d f c => .mark d f c
  | .space d => .space d

theorem mark_word_kind (c : BitVec 8) : (1#1 ++ 0#23 ++ c : BitVec 32).extractLsb' 31 1 = 1#1 := by
  revert c; decide

theorem mark_word_reserved (c : BitVec 8) : (1#1 ++ 0#23 ++ c : BitVec 32).extractLsb' 8 23 = 0#23 := by
  revert c; decide

theorem mark_word_duty (c : BitVec 8) : (1#1 ++ 0#23 ++ c : BitVec 32).extractLsb' 0 8 = c := by
  revert c; decide

/-- The words of a request decode to that request (R74, R77). -/
theorem decode_requestWords (q : Request Config.default) : decode (.drv (requestWords q)) = .ok (requestInstr q) := by
  cases q with
  | mark d f c => exact (if_pos ⟨mark_word_kind c, mark_word_reserved c⟩).trans (by rw [requestWords, mark_word_duty]; rfl)
  | space d => simp [decode, decodeDrv, requestWords, requestInstr]

/-- A request is determined by its words. -/
theorem requestWords_injective {q q' : Request Config.default} (h : requestWords q = requestWords q') : q = q' := by
  have e : (Except.ok (requestInstr q) : Except DecodeError Instr) = .ok (requestInstr q') := by
    rw [← decode_requestWords, ← decode_requestWords, h]
  cases q <;> cases q' <;> simp_all [requestInstr]

/-- Everything a driver primitive can do: complete the current phase (R143). -/
theorem completeCurrent_cases {s t : MachineState cfg} (h : completeCurrent s = .next t) :
    (s.phase = .headerMark ∧ t = complete headerMarkNext s) ∨
    (s.phase = .headerSpace ∧ t = complete headerSpaceNext s) ∨
    (s.phase = .bitMark ∧ t = complete bitMarkNext s) ∨
    (s.phase = .bitSpace ∧ t = complete bitSpaceNext s) ∨
    (s.phase = .gap ∧ t = complete gapNext s) := by
  unfold completeCurrent at h
  split at h <;> rename_i hp
  · cases h
  all_goals
    have e := (Host.Outcome.next.inj h).symm
    simp [hp, e]

theorem carryOut_cases {q : Request cfg} {s t : MachineState cfg} (h : carryOut q s = .next t) :
    s.pend = true ∧ s.drvChan = some q ∧ completeCurrent s = .next t := by
  unfold carryOut at h
  split at h
  · rename_i hq
    exact ⟨hq.1, hq.2, h⟩
  · cases h

/-- The first word of a descriptor gives its four fields back (R71). -/
theorem first_word_fields (op : BitVec 8) (v : BitVec 15) (o : BitVec 1) (c : BitVec 8) :
    (op ++ v ++ o ++ c).extractLsb' 24 8 = op ∧ (op ++ v ++ o ++ c).extractLsb' 9 15 = v ∧
      (op ++ v ++ o ++ c).extractLsb' 8 1 = o ∧ (op ++ v ++ o ++ c).extractLsb' 0 8 = c := by
  refine ⟨?_, ?_, ?_, ?_⟩
  all_goals
    apply BitVec.eq_of_getLsbD_eq
    intro i hi
    simp only [BitVec.getLsbD_extractLsb', BitVec.getLsbD_append, hi, decide_true, Bool.true_and]
  · rw [if_neg (by omega), if_neg (by omega), if_neg (by omega)]
    congr 1; omega
  · rw [if_neg (by omega), if_neg (by omega), if_pos (by omega)]
    congr 1; omega
  · rw [if_neg (by omega), if_pos (by omega)]
    congr 1; omega
  · rw [if_pos (by omega)]
    congr 1; omega

/-- The second word of a descriptor gives its two fields back (R71). -/
theorem second_word_fields (k n : BitVec 16) :
    (k ++ n).extractLsb' 0 16 = n ∧ (k ++ n).extractLsb' 16 16 = k := by
  refine ⟨?_, ?_⟩
  all_goals
    apply BitVec.eq_of_getLsbD_eq
    intro i hi
    simp only [BitVec.getLsbD_extractLsb', BitVec.getLsbD_append, hi, decide_true, Bool.true_and]
  · rw [if_pos (by omega)]
    congr 1; omega
  · rw [if_neg (by omega)]
    congr 1; omega

/-- Every descriptor, legal or not, is the record of its words (R71, R85). -/
theorem descriptorOf_descriptorWords (d : Descriptor Config.default) : descriptorOf (descriptorWords d) = d := by
  obtain ⟨op, v, hm, hs, bm, os, zs, gap, freq, duty, nbytes, repeats, order⟩ := d
  obtain ⟨h1, h2, h3, h4⟩ := first_word_fields op v order duty
  obtain ⟨h5, h6⟩ := second_word_fields repeats nbytes
  simp only [descriptorOf, descriptorWords]
  congr

/-- Whose step it is, read off the state (R101, R114, R115). -/
theorem turn_cases (s : MachineState cfg) :
    turn s = .nobody ∨
    (∃ q, turn s = .driver q ∧ s.pend = true ∧ s.drvChan = some q) ∨
    (turn s = .sequencer s.phase ∧ s.pend = false ∧ s.phase ≠ .idle) ∨
    (∃ l rest, turn s = .host l rest ∧ s.pend = false ∧ s.phase = .idle ∧ s.hostWait = false ∧
      s.hostQueue = l :: rest) := by
  unfold turn
  split
  · rename_i hp
    split <;> simp_all
  · rename_i hp
    split
    · split
      · simp
      · split <;> simp_all
    · simp_all

/-- A phase operation that is selected and has nothing in flight issues the timing mux's request (R114). -/
theorem phaseOp_issue {s t : MachineState cfg} (hp : s.pend = false) (h : phaseOp s.phase s = .next t) :
    ∃ q, timingMux s = some q ∧ t = issue q s := by
  unfold phaseOp at h
  split at h
  · cases h
  all_goals
    rename_i hph
    obtain ⟨-, ⟨hb, -⟩ | ⟨q, -, hq, rfl⟩⟩ := phaseOperation_cases h
    · simp [hp] at hb
    · exact ⟨q, by simp only [timingMux, hph, ← hq], rfl⟩

/-- Everything one step can do on a platform: nothing, the host's `TRANSMIT`, an issue step, or a completion step. -/
theorem stepOn_cases {s t : MachineState cfg} (h : stepOn cfg s = .next t) :
    (turn s = .nobody ∧ t = s) ∨
    (∃ l rest, s.pend = false ∧ s.phase = .idle ∧ s.hostWait = false ∧ s.hostQueue = l :: rest ∧
      t = acceptDescriptor cfg l.desc (hostSends l rest s)) ∨
    (∃ q, s.pend = false ∧ s.phase ≠ .idle ∧ timingMux s = some q ∧ t = issue q s) ∨
    (∃ q, s.pend = true ∧ s.drvChan = some q ∧ completeCurrent s = .next t) := by
  unfold stepOn at h
  obtain ht | ⟨q, ht, hp, hc⟩ | ⟨ht, hp, hne⟩ | ⟨l, rest, ht, hp, hph, hw, hq⟩ := turn_cases s <;> rw [ht] at h
  · exact .inl ⟨ht, (Host.Outcome.next.inj h).symm⟩
  · refine .inr (.inr (.inr ⟨q, hp, hc, ?_⟩))
    cases q <;> exact (carryOut_cases h).2.2
  · obtain ⟨q, hq, rfl⟩ := phaseOp_issue hp h
    exact .inr (.inr (.inl ⟨q, hp, hne, hq, rfl⟩))
  · exact .inr (.inl ⟨l, rest, hp, hph, hw, hq, (transmit_cases h).2.2⟩)

/-- The words between the agents change nothing: `step` is the step of the default platform on the records (R85). -/
theorem step_eq (s : State) : step s = Result.ofDefault (stepOn Config.default s.toMachineState) := by
  unfold step stepOn
  obtain ht | ⟨q, ht, hp, hc⟩ | ⟨ht, hp, hne⟩ | ⟨l, rest, ht, hp, hph, hw, hq⟩ := turn_cases s.toMachineState <;> rw [ht]
  · rfl
  · cases q <;> simp only [decode_requestWords, requestInstr] <;> rfl
  · simp only
    cases hph : s.phase <;> first | exact absurd hph hne | rfl
  · simp only [Launch.words, descriptorOf_descriptorWords]
    rfl

/-- A next state of `step` is one of the default platform's step. -/
theorem step_eq_next_iff (s t : State) :
    step s = .next t ↔ stepOn Config.default s.toMachineState = .next t.toMachineState := by
  rw [step_eq]
  obtain ⟨m⟩ := t
  cases stepOn Config.default s.toMachineState <;> simp [Result.ofDefault]

end Sys2Proof.Machine
end

