-- ==== Sys2Proof/Laws/PerInstr.lean ====
section
/-! SUPPORT. The families of statements about every operation as syntax, one lemma for each constructor. -/

namespace Sys2Proof.Laws

/-- A first word or code, the mask and the value of its row of spec/opcode_table.json (30_encoding.md R77). -/
def TableRow.firstWord : Message → BitVec 32
  | .cmd m => m.w0
  | .phase c => c.setWidth 32
  | .drv m => m.q0

/-- The row's mask. -/
def TableRow.mask : Instr → BitVec 32
  | .transmit _ => 0xFFFFFE00#32
  | .headerMark => 0x7#32
  | .headerSpace => 0x7#32
  | .bitMark => 0x7#32
  | .bitSpace => 0x7#32
  | .gap => 0x7#32
  | .mark _ _ _ => 0xFFFFFF00#32
  | .space _ => 0xFFFFFFFF#32

/-- The row's match. -/
def TableRow.value : Instr → BitVec 32
  | .transmit _ => 0x01000000#32
  | .headerMark => 0x1#32
  | .headerSpace => 0x2#32
  | .bitMark => 0x3#32
  | .bitSpace => 0x4#32
  | .gap => 0x5#32
  | .mark _ _ _ => 0x80000000#32
  | .space _ => 0x00000000#32

/-- The encoding of a well-formed operation has the bits its row of the operation table fixes. -/
def TableRow.Statement (i : Instr) : Prop :=
  i.wellFormed = true → TableRow.firstWord (encode i) &&& TableRow.mask i = TableRow.value i

theorem transmit_first_word (o : BitVec 1) (c : BitVec 8) :
    (opTransmit ++ 0#15 ++ o ++ c : BitVec 32) &&& 0xFFFFFE00#32 = 0x01000000#32 := by
  revert o c; decide

theorem mark_first_word (c : BitVec 8) :
    (1#1 ++ 0#23 ++ c : BitVec 32) &&& 0xFFFFFF00#32 = 0x80000000#32 := by
  revert c; decide

theorem TableRow.transmit (d : Descriptor Config.default) : TableRow.Statement (.transmit d) := by
  intro h
  obtain ⟨op, reserved, r⟩ := d
  simp only [Instr.wellFormed, Bool.and_eq_true, beq_iff_eq] at h
  obtain ⟨rfl, rfl⟩ := h
  exact transmit_first_word r.order r.duty

theorem TableRow.headerMark : TableRow.Statement .headerMark := by intro _; decide

theorem TableRow.headerSpace : TableRow.Statement .headerSpace := by intro _; decide

theorem TableRow.bitMark : TableRow.Statement .bitMark := by intro _; decide

theorem TableRow.bitSpace : TableRow.Statement .bitSpace := by intro _; decide

theorem TableRow.gap : TableRow.Statement .gap := by intro _; decide

theorem TableRow.mark (d : BitVec Config.default.DW) (f : BitVec Config.default.FW) (c : BitVec Config.DUTYW) :
    TableRow.Statement (.mark d f c) := fun _ => mark_first_word c

theorem TableRow.space (d : BitVec Config.default.DW) : TableRow.Statement (.space d) := by
  intro _
  show (0#32 : BitVec 32) &&& 0xFFFFFFFF#32 = 0#32
  decide

end Sys2Proof.Laws
end

