-- ==== Sys2Proof/Tests/Slice0.lean ====
section
/-! SUPPORT. Tests of the model, and for every statement that has hypotheses a named theorem that shows a state and operands
that meet them. Expected values are from spec/95_test_vectors.md where a vector is named, and else written out from the rule
the comment names. -/

namespace Sys2Proof.Tests
open Sys2Proof Sys2Proof.Machine

/-- The profile `SMALL` of the vectors, with `NBYTES`, `REPEATS` and `ORDER`. -/
def small (n k : BitVec 16) (o : BitVec 1) : OperandRegs Config.default :=
  ⟨100#32, 50#32, 10#32, 30#32, 20#32, 1000#32, 40000#32, 25#8, n, k, o⟩

/-- A `TRANSMIT` descriptor with `SMALL`. -/
def desc (n k : BitVec 16) : Descriptor Config.default := ⟨0x01#8, 0#15, small n k 0#1⟩

/-- A running call of `SMALL` at a position, with `P = [0xA5, 0x0F]`. -/
def running (p : Phase) (i : BitVec 16) (b : BitVec 19) (pend : Bool) (q : Option (Request Config.default)) (a : List Answer) : State :=
  { State.reset with
      ops := small 2#16 1#16 0#1, phase := p, iter := i, bitidx := b, pend := pend, hostWait := true,
      payload := [(0, 0xA5#8), (1, 0x0F#8)], drvChan := q, drvAnswers := a }

/-- The next state, where there is one. -/
def nextOf : Result → Option State
  | .next t => some t
  | .fault _ => none
  | .refused _ => none

/-- The position after an operation (vectors S1 to S14). -/
def positionOf (r : Result) : Option (Phase × Nat × Nat) :=
  (nextOf r).map (fun t => (t.phase, t.iter.toNat, t.bitidx.toNat))

/-- The last request recorded after an operation. -/
def lastOf (r : Result) : Option (Request Config.default) := (nextOf r).bind (fun t => t.trace.getLast?)

/-! ## Well-formedness: each check refuses an ill-formed term -/

theorem test_wf_accepts_transmit : (Instr.transmit (desc 1 0)).wellFormed = true := by decide
theorem test_wf_refuses_operation_code : (Instr.transmit { desc 1 0 with op := 0x02#8 }).wellFormed = false := by decide
theorem test_wf_refuses_reserved_field : (Instr.transmit { desc 1 0 with reserved := 1#15 }).wellFormed = false := by decide

/-! ## Decoding, from words written out bit by bit -/

/-- `W0 = OP 00000001, reserved 15 zeros, ORDER 1, DUTY 00011001`; `W1 = REPEATS 3, NBYTES 2` (R71). -/
theorem test_decode_transmit :
    decode (.cmd ⟨0b00000001000000000000000100011001#32, 0b00000000000000110000000000000010#32,
      0x00009C40#32, 0x00000064#32, 0x00000032#32, 0x0000000A#32, 0x0000001E#32, 0x00000014#32, 0x000003E8#32⟩) =
    .ok (.transmit ⟨0x01#8, 0#15, small 2#16 3#16 1#1⟩) := by decide
theorem test_decode_transmit_other_op :
    decode (.cmd ⟨0x02000019#32, 1#32, 0#32, 0#32, 0#32, 0#32, 0#32, 0#32, 0#32⟩) = .error (.reservedOp 2#8) := by decide
theorem test_decode_transmit_reserved_bits :
    decode (.cmd ⟨0x01800019#32, 1#32, 0#32, 0#32, 0#32, 0#32, 0#32, 0#32, 0#32⟩) =
      .error (.reservedField 0x4000#15) := by decide
theorem test_decode_header_mark : decode (.phase 0b001#3) = .ok .headerMark := by decide
theorem test_decode_header_space : decode (.phase 0b010#3) = .ok .headerSpace := by decide
theorem test_decode_bit_mark : decode (.phase 0b011#3) = .ok .bitMark := by decide
theorem test_decode_bit_space : decode (.phase 0b100#3) = .ok .bitSpace := by decide
theorem test_decode_gap : decode (.phase 0b101#3) = .ok .gap := by decide
theorem test_decode_idle_is_none : decode (.phase 0b000#3) = .error .idleCode := by decide
theorem test_decode_reserved_code : decode (.phase 0b110#3) = .error (.reservedCode 6#3) := by decide
/-- `Q0 = KIND 1, 23 zeros, DUTY 00110010` (R74). -/
theorem test_decode_mark :
    decode (.drv ⟨0b10000000000000000000000000110010#32, 0x00000276#32, 0x00009470#32⟩) =
      .ok (.mark 630#32 38000#32 50#8) := by decide
theorem test_decode_space : decode (.drv ⟨0x00000000#32, 0x0000047C#32, 0x00000000#32⟩) = .ok (.space 1148#32) := by decide
theorem test_decode_other_request : decode (.drv ⟨0x00000032#32, 1#32, 0#32⟩) = .error .otherRequest := by decide
theorem test_encode_mark : encode (.mark 10#32 40000#32 25#8) = .drv ⟨0x80000019#32, 0x0000000A#32, 0x00009C40#32⟩ := by decide
theorem test_encode_transmit :
    encode (.transmit (desc 2 1)) = .cmd ⟨0x01000019#32, 0x00010002#32, 0x00009C40#32, 0x00000064#32, 0x00000032#32,
      0x0000000A#32, 0x0000001E#32, 0x00000014#32, 0x000003E8#32⟩ := by decide
theorem test_table_transmit : decodeTableWord 32 0x01000119 =
    some (.transmit ⟨1#8, 0#15, { OperandRegs.reset Config.default with duty := 25#8, order := 1#1 }⟩) := by decide
theorem test_table_gap : decodeTableWord 8 5 = some .gap := by decide
theorem test_table_reserved_code : decodeTableWord 8 6 = none := by decide
theorem test_table_mark : decodeTableWord 32 0x80000019 = some (.mark 0 0 25#8) := by decide
theorem test_table_space : decodeTableWord 32 0 = some (.space 0) := by decide
theorem test_table_reserved_op : decodeTableWord 32 0x02000000 = none := by decide

/-! ## One step on a small state -/

/-- Vector T1: a valid start. -/
theorem test_transmit_starts :
    positionOf (exec (.transmit (desc 1 0)) State.reset) = some (.headerMark, 0, 0) := by decide
/-- Vector T9: the frequency is checked before the duty. -/
theorem test_transmit_frequency_first :
    (nextOf (exec (.transmit ⟨0x01#8, 0#15, { small 1 0 0 with freq := 0, duty := 200#8 }⟩) State.reset)).map
      (fun t => (t.cause, t.responses)) = some (.cfgFreq, [.cfgFreq]) := by decide
/-- Vector S1. -/
theorem test_header_mark_issue :
    lastOf (exec .headerMark (running .headerMark 0 0 false none [])) = some (.mark 100#32 40000#32 25#8) := by decide
theorem test_header_mark_completion :
    positionOf (exec .headerMark (running .headerMark 0 0 true none [.ok])) = some (.headerSpace, 0, 0) := by decide
/-- Vector S2. -/
theorem test_header_space_issue :
    lastOf (exec .headerSpace (running .headerSpace 0 0 false none [])) = some (.space 50#32) := by decide
/-- Vector S3: no bits. -/
theorem test_header_space_no_bits :
    positionOf (exec .headerSpace { running .headerSpace 0 0 true none [.ok] with ops := small 0 0 0 }) =
      some (.gap, 0, 0) := by decide
/-- Vector S4. -/
theorem test_bit_mark_issue :
    lastOf (exec .bitMark (running .bitMark 0 5 false none [])) = some (.mark 10#32 40000#32 25#8) := by decide
theorem test_bit_mark_completion :
    positionOf (exec .bitMark (running .bitMark 0 5 true none [.ok])) = some (.bitSpace, 0, 5) := by decide
/-- Vector S8: the first bit of byte 1 is 0. -/
theorem test_bit_space_second_byte :
    lastOf (exec .bitSpace (running .bitSpace 0 8 false none [])) = some (.space 20#32) := by decide
/-- Vector S9: the last bit is followed by the gap. -/
theorem test_bit_space_last_bit :
    positionOf (exec .bitSpace (running .bitSpace 0 15 true none [.ok])) = some (.gap, 0, 15) := by decide
/-- Vector S10. -/
theorem test_gap_next_iteration :
    positionOf (exec .gap (running .gap 0 15 true none [.ok])) = some (.headerMark, 1, 0) := by decide
/-- Vector S11: the end of the call. -/
theorem test_gap_ends_call :
    (nextOf (exec .gap (running .gap 1 15 true none [.ok]))).map
      (fun t => (t.phase, t.iter.toNat, t.bitidx.toNat, t.responses, t.hostWait)) =
      some (.idle, 1, 15, [.none], false) := by decide
/-- Vector F1: the driver fails the first mark. -/
theorem test_mark_fault :
    (nextOf (exec (.mark 100#32 40000#32 25#8)
      (running .headerMark 0 0 true (some (.mark 100#32 40000#32 25#8)) [.fault]))).map
      (fun t => (t.phase, t.pend, t.cause)) = some (.idle, false, .drvFault) := by decide
theorem test_space_answered :
    positionOf (exec (.space 30#32) (running .bitSpace 0 7 true (some (.space 30#32)) [.ok])) =
      some (.bitMark, 0, 8) := by decide
/-- The order of a byte's bits with `ORDER = 1` (the iterator table of the vectors, `[0x80, 0x01]`). -/
theorem test_lsb_first : payloadBit (nw := 16) 1#1 [(0, 0x80#8), (1, 0x01#8)] 8#19 = some true := by decide
/-- The answer bit both ways (R75). -/
theorem test_answer_bit : (Answer.ofBit 1#1, Answer.ofBit 0#1, Answer.fault.bit) = (.fault, .ok, 1#1) := by decide
/-- Operand register 4 is `ZS`, 10 is `ORDER` (10_state.md R20). -/
theorem test_operand_numbers : (readOperand (small 2 1 1) 4, readOperand (small 2 1 1) 10) = (20, 1) := by decide
/-- `STATUS = 1 1 100 000` (10_state.md R32). -/
theorem test_status : (running .bitSpace 0 7 true none []).status = 0b11100000#8 := by decide
/-- The words of the source's example (vector V1) from the call as the source writes it. -/
theorem test_host_call :
    (transmitCall (cfg := Config.default) ⟨3780, 1438, 630, 1148, 476, 100000, 38000, 50⟩ [0xC4#8] 1 0).words =
      ⟨0x01000032#32, 0x00000001#32, 0x00009470#32, 0x00000EC4#32, 0x0000059E#32, 0x00000276#32,
        0x0000047C#32, 0x000001DC#32, 0x000186A0#32⟩ := by decide
/-- The written forms of the source's example (R82, R83). -/
theorem test_interval_text : intervalText (cfg := Config.default) (.mark 630#32 38000#32 50#8) = "(630,on)" := by decide
theorem test_payload_text : payloadText [0xC4#8] = "[0xC4]" := by decide
/-- A program comes to run from reset when its words are placed (notes/assumptions/6.md): the first step takes them. -/
theorem test_fetch_word_bit_space :
    (nextOf (step (State.reset.withFetchWord 8 4))).map (fun t => t.pend) = some true := by decide
theorem test_fetch_word_transmit :
    (nextOf (step (State.reset.withFetchWord 32 0x01000000))).map (fun t => t.responses) = some [.cfgFreq] := by decide

/-! ## Hypotheses that something meets -/

theorem witness_stepRuns_sequencer : let s := running .gap 0 15 false none []
    s.pend = false ∧ s.phase ≠ .idle ∧ decode (.phase s.phase.code) = .ok .gap := by decide
theorem witness_stepRuns_driver : let s := running .headerMark 0 0 true (some (.mark 100#32 40000#32 25#8)) [.ok]
    s.pend = true ∧ s.drvChan = some (.mark 100#32 40000#32 25#8) ∧
      requestWords (.mark 100#32 40000#32 25#8) = ⟨0x80000019#32, 100#32, 40000#32⟩ ∧
      decode (.drv ⟨0x80000019#32, 100#32, 40000#32⟩) = .ok (.mark 100#32 40000#32 25#8) := by decide

/-- The host has one launch of `SMALL` to send. -/
def hosting (l : Launch Config.default) (a : List Answer) : State := { State.reset with hostQueue := [l], drvAnswers := a }

/-- A launch of `SMALL` with no payload byte. -/
def emptyLaunch : Launch Config.default := ⟨desc 0 0, []⟩

/-- A launch of words that are no `TRANSMIT`. -/
def illegalLaunch : Launch Config.default :=
  Launch.ofWords { descriptorWords (desc 0 0) with w0 := 0x02000019#32 } []

theorem witness_stepRuns_host : let s := hosting emptyLaunch []
    s.pend = false ∧ s.phase = .idle ∧ s.hostWait = false ∧ s.hostQueue = [emptyLaunch] ∧
      decode (.cmd emptyLaunch.words) = .ok (.transmit (desc 0 0)) := by decide
theorem witness_stepAnswersIllegalDescriptor : let s := hosting illegalLaunch []
    s.pend = false ∧ s.phase = .idle ∧ s.hostWait = false ∧ s.hostQueue = [illegalLaunch] ∧
      decode (.cmd illegalLaunch.words) = .error (.reservedOp 2#8) := by decide
theorem witness_idleWithoutCommand :
    State.reset.phase = .idle ∧ State.reset.pend = false ∧ State.reset.hostWait = false ∧ State.reset.hostQueue = [] := by decide
theorem witness_transmitNotEnabled :
    ¬ ((running .bitMark 0 0 false none []).phase = .idle ∧ (running .bitMark 0 0 false none []).hostWait = false) := by decide
theorem witness_busyStepCompletes :
    (running .bitMark 0 0 false none []).phase ≠ .idle ∧
      (nextOf (step (running .bitMark 0 0 false none []))).isSome = true := by decide
/-- Duty exactly 100. -/
theorem witness_transmitStarts : let d : Descriptor Config.default := ⟨0x01#8, 0#15, { small 1 0 0 with duty := 100#8 }⟩
    State.reset.phase = .idle ∧ State.reset.hostWait = false ∧ d.op = 0x01#8 ∧ d.reserved = 0#15 ∧
      d.operands.freq ≠ 0#32 ∧ d.operands.duty.toNat ≤ 100 := by decide
theorem witness_acceptable : acceptable Config.default (desc 1 0) := ⟨rfl, rfl, by decide⟩
theorem witness_illegalDescriptor :
    (Descriptor.mk 0x01#8 0x4000#15 (small 1 0 0)).op ≠ 0x01#8 ∨
      (Descriptor.mk 0x01#8 0x4000#15 (small 1 0 0)).reserved ≠ 0#15 := by decide

/-- A platform at the least widths of R7 that takes frequencies from 30000 Hz and gaps below 100000 microseconds. -/
def narrow : Config where
  DW := 17
  FW := 16
  NW := 1
  RW := 1
  freqValid := fun f => decide (30000 ≤ f.toNat)
  durValid := fun _ _ _ _ _ g => decide (g.toNat < 100000)
  DW_min := by decide
  FW_min := by decide
  NW_min := by decide
  RW_min := by decide
  freqValid_zero := by decide

/-- A descriptor of that platform with one payload byte and two iterations. -/
def narrowDesc (f : BitVec 16) (c : BitVec 8) (g : BitVec 17) : Descriptor narrow :=
  ⟨0x01#8, 0#15, ⟨100#17, 50#17, 10#17, 30#17, 20#17, g, f, c, 1#1, 1#1, 0#1⟩⟩

/-- That platform after reset with one launch to come. -/
def narrowHosting (d : Descriptor narrow) (p : List Byte) (a : List Answer) : MachineState narrow :=
  { MachineState.reset narrow with hostQueue := [⟨d, p⟩], drvAnswers := a }

/-- The next state of a step on that platform, where there is one. -/
def nextOn (r : ResultOn narrow) : Option (MachineState narrow) :=
  match r with
  | .next t => some t
  | .fault _ => none
  | .refused _ => none

theorem witness_check_freq : Config.default.freqValid 0#32 = false ∧ narrow.freqValid 29999#16 = false := by decide
/-- Duty 101, the least that is refused. -/
theorem witness_check_duty : Config.default.freqValid 40000#32 = true ∧ 100 < (101#8).toNat := by decide
/-- Gap 100000, the least that this platform refuses. -/
theorem witness_check_timing : configFault narrow (narrowDesc 30000 100 100000).operands = some .cfgTiming := by decide
/-- `CFG_TIMING` by a step of a platform that narrows the timings (R154). -/
theorem test_platform_timing_fault :
    (nextOn (stepOn narrow (narrowHosting (narrowDesc 30000 100 100000) [] []))).map (fun t => (t.cause, t.responses)) =
      some (.cfgTiming, [.cfgTiming]) := by decide
/-- The same platform starts a command that it accepts. -/
theorem test_platform_starts :
    (nextOn (stepOn narrow (narrowHosting (narrowDesc 30000 100 99999) [0x80#8] []))).map (fun t => (t.phase, t.payload)) =
      some (.headerMark, [(0, 0x80#8)]) := by decide
theorem witness_platformFaults : let s := narrowHosting (narrowDesc 29999 101 100000) [] []
    s.pend = false ∧ s.phase = .idle ∧ s.hostWait = false ∧ s.hostQueue = [⟨narrowDesc 29999 101 100000, []⟩] ∧
      (narrowDesc 29999 101 100000).op = 0x01#8 ∧ (narrowDesc 29999 101 100000).reserved = 0#15 ∧
      narrow.freqValid 29999#16 = false ∧ narrow.freqValid 30000#16 = true ∧
      narrow.durValid 100#17 50#17 10#17 30#17 20#17 100000#17 = false := by decide
theorem witness_acceptable_narrow : acceptable narrow (narrowDesc 30000 100 99999) := ⟨rfl, rfl, by decide⟩
/-- Two iterations of one byte: 38 requests, the last index of the port in use. -/
theorem witness_platformCall :
    let d := narrowDesc 30000 100 99999
    let s := narrowHosting d [0x80#8] (List.replicate 38 .ok)
    (s.phase = .idle ∧ s.pend = false ∧ s.hostWait = false ∧ s.drvChan = none) ∧
      s.hostQueue = [⟨d, [0x80#8]⟩] ∧ d.operands.nbytes.toNat ≤ [0x80#8].length ∧
      s.drvAnswers = List.replicate (callLength d.operands) .ok ++ [] := by decide
/-- The same launch with its last request failed. -/
theorem witness_platformFaultedCall :
    let d := narrowDesc 30000 100 99999
    let s := narrowHosting d [0x80#8] (List.replicate 37 .ok ++ [.fault])
    37 < callLength d.operands ∧ s.drvAnswers = List.replicate 37 .ok ++ .fault :: [] := by decide

/-- That platform in the last bit of its one byte, at the last iteration, the request in flight. -/
def narrowFlying (p : Phase) (i : BitVec 1) (b : BitVec 4) (q : Request narrow) (a : List Answer) :
    MachineState narrow :=
  { MachineState.reset narrow with
      ops := (narrowDesc 30000 100 99999).operands, phase := p, iter := i, bitidx := b, pend := true, hostWait := true,
      payload := [(0, 0x81#8)], drvChan := some q, drvAnswers := a, trace := [q] }

/-- `BITIDX` at its last value 7 goes on to the gap with `BITIDX` kept (R119), on 4 bits. -/
theorem test_platform_last_bit :
    (nextOn (stepOn narrow (narrowFlying .bitSpace 0 7 (.space 30#17) [.ok]))).map (fun t => (t.phase, t.bitidx.toNat)) =
      some (.gap, 7) := by decide

theorem narrowFlying_inv (a : List Answer) : Inv (narrowFlying .bitSpace 0 7 (.space 30#17) a) where
  position := by
    constructor <;> intro h <;> revert h <;> simp [narrowFlying, narrowDesc]
  waiting := by simp [narrowFlying, MachineState.busy]
  cause := by intro _; rfl
  config := by intro _; show configFault narrow (narrowDesc 30000 100 99999).operands = none; decide
  payload := by show Memory.wf narrow [(0, 0x81#8)] = true; decide
  flight := by
    have h : payloadBit (nw := 1) 0#1 [(0, 0x81#8)] 7#4 = some true := by decide
    intro _
    refine ⟨.space 30#17, ?_, rfl, rfl⟩
    show currentBitSpaceReq _ = _
    unfold currentBitSpaceReq
    rw [show payloadBit (narrowFlying .bitSpace 0 7 (.space 30#17) a).ops.order
      (narrowFlying .bitSpace 0 7 (.space 30#17) a).payload (narrowFlying .bitSpace 0 7 (.space 30#17) a).bitidx =
      some true from h]
    rfl
  noFlight := by simp [narrowFlying]
  carrier := by intro _ d f c h; simp [narrowFlying] at h

/-- A completion step of that platform from a state with the invariant. -/
theorem witness_platformCompletion : Inv (narrowFlying .bitSpace 0 7 (.space 30#17) [.ok]) ∧
    (narrowFlying .bitSpace 0 7 (.space 30#17) [.ok]).pend = true ∧
    ∃ t, stepOn narrow (narrowFlying .bitSpace 0 7 (.space 30#17) [.ok]) = .next t ∧ t.phase = .gap :=
  ⟨narrowFlying_inv _, rfl, _, rfl, by decide⟩

/-- The header mark of that platform still to be issued. -/
theorem witness_platformIssue :
    let s : MachineState narrow :=
      startCall (latch (narrowDesc 30000 100 99999) { MachineState.reset narrow with payload := [(0, 0x81#8)] })
    Inv s ∧ TraceInv s ∧ s.pend = false ∧ timingMux s = some (.mark 100#17 30000#16 100#8) := by
  refine ⟨⟨?_, rfl, fun _ => rfl, ?_, ?_, ?_, fun _ => rfl, ?_⟩, fun _ _ => rfl, rfl, rfl⟩
  · constructor <;> intro h <;> revert h <;> simp [startCall, latch, narrowDesc]
  · intro _; show configFault narrow (narrowDesc 30000 100 99999).operands = none; decide
  · show Memory.wf narrow [(0, 0x81#8)] = true; decide
  · intro h; cases h
  · intro _ d f c h; cases h
theorem witness_reachableOn : reachableOn narrow (MachineState.reset narrow) := ⟨[], [], 0, rfl⟩

theorem witness_headerMark_issue : let s := running .headerMark 0 0 false none []
    s.phase = .headerMark ∧ s.pend = false := by decide
theorem witness_headerMark_ok : let s := running .headerMark 0 0 true none [.ok]
    s.phase = .headerMark ∧ s.pend = true ∧ s.drvAnswers = .ok :: [] := by decide
theorem witness_headerMark_fault : let s := running .headerMark 0 0 true none [.fault]
    s.phase = .headerMark ∧ s.pend = true ∧ s.drvAnswers = .fault :: [] := by decide
theorem witness_headerSpace_issue : let s := running .headerSpace 0 0 false none []
    s.phase = .headerSpace ∧ s.pend = false := by decide
theorem witness_headerSpace_ok : let s := running .headerSpace 0 0 true none [.ok]
    s.phase = .headerSpace ∧ s.pend = true ∧ s.drvAnswers = .ok :: [] := by decide
theorem witness_headerSpace_fault : let s := running .headerSpace 0 0 true none [.fault]
    s.phase = .headerSpace ∧ s.pend = true ∧ s.drvAnswers = .fault :: [] := by decide
theorem witness_bitMark_issue : let s := running .bitMark 0 0 false none []
    s.phase = .bitMark ∧ s.pend = false := by decide
theorem witness_bitMark_ok : let s := running .bitMark 0 0 true none [.ok]
    s.phase = .bitMark ∧ s.pend = true ∧ s.drvAnswers = .ok :: [] := by decide
theorem witness_bitMark_fault : let s := running .bitMark 0 0 true none [.fault]
    s.phase = .bitMark ∧ s.pend = true ∧ s.drvAnswers = .fault :: [] := by decide
/-- The last bit, in the last byte. -/
theorem witness_bitSpace_issue : let s := running .bitSpace 0 15 false none []
    s.phase = .bitSpace ∧ s.pend = false ∧ Memory.read s.payload (s.bitidx.toNat / 8) = some 0x0F#8 := by decide
theorem witness_bitSpace_next_bit : let s := running .bitSpace 0 14 true none [.ok]
    s.phase = .bitSpace ∧ s.pend = true ∧ s.bitidx.toNat < 8 * s.ops.nbytes.toNat ∧
      s.bitidx.toNat + 1 < 8 * s.ops.nbytes.toNat ∧ s.drvAnswers = .ok :: [] := by decide
theorem witness_bitSpace_last_bit : let s := running .bitSpace 0 15 true none [.ok]
    s.phase = .bitSpace ∧ s.pend = true ∧ s.bitidx.toNat < 8 * s.ops.nbytes.toNat ∧
      ¬ s.bitidx.toNat + 1 < 8 * s.ops.nbytes.toNat ∧ s.drvAnswers = .ok :: [] := by decide
theorem witness_bitSpace_fault : let s := running .bitSpace 0 15 true none [.fault]
    s.phase = .bitSpace ∧ s.pend = true ∧ s.drvAnswers = .fault :: [] := by decide
theorem witness_gap_issue : let s := running .gap 0 15 false none []
    s.phase = .gap ∧ s.pend = false := by decide
theorem witness_gap_ok_repeats : let s := running .gap 0 15 true none [.ok]
    s.phase = .gap ∧ s.pend = true ∧ s.drvAnswers = .ok :: [] ∧ s.iter.toNat < s.ops.repeats.toNat := by decide
theorem witness_gap_ok_last : let s := running .gap 1 15 true none [.ok]
    s.phase = .gap ∧ s.pend = true ∧ s.drvAnswers = .ok :: [] ∧ ¬ s.iter.toNat < s.ops.repeats.toNat := by decide
theorem witness_gap_fault : let s := running .gap 1 15 true none [.fault]
    s.phase = .gap ∧ s.pend = true ∧ s.drvAnswers = .fault :: [] := by decide

/-- A mark of duration `d` with the carrier of `SMALL`. -/
def markOf (d : BitVec 32) : Request Config.default := .mark d 40000#32 25#8

theorem witness_mark_headerMark : let s := running .headerMark 0 0 true (some (markOf 100)) [.ok]
    s.pend = true ∧ s.drvChan = some (.mark 100#32 40000#32 25#8) ∧ s.phase = .headerMark ∧
      s.drvAnswers = .ok :: [] ∧ decode (.phase s.phase.code) = .ok .headerMark := by decide
theorem witness_mark_bitMark : let s := running .bitMark 0 3 true (some (markOf 10)) [.ok]
    s.pend = true ∧ s.drvChan = some (.mark 10#32 40000#32 25#8) ∧ s.phase = .bitMark ∧
      s.drvAnswers = .ok :: [] := by decide
theorem witness_mark_fault : let s := running .bitMark 0 3 true (some (markOf 10)) [.fault]
    s.pend = true ∧ s.drvChan = some (.mark 10#32 40000#32 25#8) ∧ s.phase ≠ .idle ∧
      s.drvAnswers = .fault :: [] := by decide
theorem witness_space_headerSpace : let s := running .headerSpace 0 0 true (some (.space 50#32)) [.ok]
    s.pend = true ∧ s.drvChan = some (.space 50#32) ∧ s.phase = .headerSpace ∧ s.drvAnswers = .ok :: [] ∧
      decode (.phase s.phase.code) = .ok .headerSpace := by decide
theorem witness_space_bitSpace : let s := running .bitSpace 0 15 true (some (.space 30#32)) [.ok]
    s.pend = true ∧ s.drvChan = some (.space 30#32) ∧ s.phase = .bitSpace ∧
      s.bitidx.toNat < 8 * s.ops.nbytes.toNat ∧ s.drvAnswers = .ok :: [] := by decide
theorem witness_space_gap : let s := running .gap 1 15 true (some (.space 1000#32)) [.ok]
    s.pend = true ∧ s.drvChan = some (.space 1000#32) ∧ s.phase = .gap ∧ s.drvAnswers = .ok :: [] := by decide
theorem witness_space_fault : let s := running .gap 1 15 true (some (.space 1000#32)) [.fault]
    s.pend = true ∧ s.drvChan = some (.space 1000#32) ∧ s.phase ≠ .idle ∧ s.drvAnswers = .fault :: [] := by decide

theorem witness_notSelected : let s := running .gap 0 15 false none []
    s.phase ≠ .headerMark ∧ s.phase ≠ .headerSpace ∧ s.phase ≠ .bitMark ∧ s.phase ≠ .bitSpace ∧
      (running .bitMark 0 0 false none []).phase ≠ .gap := by decide
theorem witness_notInFlight : let s := running .gap 0 15 true (some (.space 1000#32)) []
    (running .gap 0 15 false none []).pend = false ∧ State.reset.phase = .idle ∧
      s.drvChan ≠ some (.mark 1000#32 40000#32 25#8) ∧ s.drvChan ≠ some (.space 999#32) := by decide
/-- The first bit of the first byte that does not exist, and the last that does. -/
theorem witness_underrun :
    let s := running .bitSpace 0 16 false none []
    let u := running .bitSpace 0 15 false none []
    Memory.wf Config.default s.payload = true ∧ s.phase = .bitSpace ∧ s.pend = false ∧ s.plen ≤ s.bitidx.toNat / 8 ∧
      ¬ u.plen ≤ u.bitidx.toNat / 8 := by decide
theorem witness_fault_occurs : exec .bitSpace (running .bitSpace 0 16 false none []) = .fault .payloadUnderrun := rfl
theorem witness_issue : let s := running .bitSpace 0 15 false none []
    s.phase ≠ .idle ∧ s.pend = false ∧ timingMux s.toMachineState = some (.space 30#32) := by decide
theorem witness_issue_appends :
    (nextOf (step (running .bitSpace 0 15 false none []))).map (fun t => t.trace) =
      some ((running .bitSpace 0 15 false none []).trace ++ [.space 30#32]) := by decide
theorem witness_mux_bits : let s := running .bitSpace 0 0 false none []
    s.phase = .bitSpace ∧ payloadBit s.ops.order s.payload s.bitidx = some true ∧
      payloadBit (nw := 16) s.ops.order s.payload 1#19 = some false := by decide

/-- A call of `SMALL` with the header mark in flight. -/
def flying (a : List Answer) : State :=
  { running .headerMark 0 0 true (some (markOf 100)) a with trace := [.mark 100#32 40000#32 25#8] }

/-- The header mark in flight has the invariant, whatever the driver will answer. -/
theorem flying_inv (a : List Answer) : Inv (flying a).toMachineState where
  position := by constructor <;> simp [flying, running]
  waiting := by simp [flying, running, MachineState.busy]
  cause := by intro _; rfl
  config := by intro _; show configFault Config.default (small 2#16 1#16 0#1) = none; decide
  payload := by show Memory.wf Config.default [(0, 0xA5#8), (1, 0x0F#8)] = true; decide
  flight := by
    intro _
    exact ⟨.mark 100#32 40000#32 25#8, rfl, rfl, rfl⟩
  noFlight := by simp [flying, running]
  carrier := by
    intro _ d f c h
    simp only [flying, List.mem_singleton, Request.mark.injEq] at h
    exact ⟨h.2.1, h.2.2⟩

/-- Its trace is the train's first request. -/
theorem flying_traceInv (a : List Answer) : TraceInv (flying a).toMachineState := by
  intro _ _
  show [Request.mark 100#32 40000#32 25#8] =
    (train (small 2#16 1#16 0#1) [(0, 0xA5#8), (1, 0x0F#8)]).take 1
  decide

theorem witness_silentDriver : Inv (flying []).toMachineState ∧ (flying []).pend = true ∧ (flying []).drvAnswers = [] :=
  ⟨flying_inv [], rfl, rfl⟩
theorem witness_driverFault : Inv (flying [.fault]).toMachineState ∧ (flying [.fault]).pend = true ∧
    (flying [.fault]).drvAnswers = .fault :: [] ∧ TraceInv (flying [.fault]).toMachineState ∧ payloadLongEnough (flying [.fault]).toMachineState :=
  ⟨flying_inv _, rfl, rfl, flying_traceInv _, by show 2 ≤ 2; decide⟩
/-- A state with both invariants that steps on inside its call: the steps' statements, the marks' among them. -/
theorem witness_invariantStep : Inv (flying [.ok]).toMachineState ∧ TraceInv (flying [.ok]).toMachineState ∧ PositionInv (flying [.ok]).toMachineState ∧
    ∃ t, step (flying [.ok]) = .next t ∧ t.phase ≠ .idle ∧ Request.mark 100#32 40000#32 25#8 ∈ t.trace :=
  ⟨flying_inv _, flying_traceInv _, (flying_inv _).position, _, rfl, by decide, by decide⟩
/-- A step that changes `CAUSE` and sends a response, from a state with the invariant. -/
theorem witness_causeChanges : Inv (flying [.fault]).toMachineState ∧ ∃ t, step (flying [.fault]) = .next t ∧
    t.cause ≠ (flying [.fault]).cause ∧ t.responses = (flying [.fault]).responses ++ [.drvFault] :=
  ⟨flying_inv _, _, rfl, by decide, by decide⟩
theorem witness_operands_unwritten : (nextOf (exec .gap (running .gap 0 15 false none []))).isSome = true ∧
    ∀ d, Instr.gap ≠ .transmit d := ⟨by decide, fun _ h => by cases h⟩
theorem witness_operands_latched : (nextOf (exec (.transmit (desc 1 0)) State.reset)).isSome = true ∧
    (nextOf (exec (.transmit { desc 1 0 with op := 0#8 }) State.reset)).isSome = true := by decide
theorem witness_payload_unread : Instr.gap ≠ .bitSpace ∧
    (nextOf (exec .gap (running .gap 0 15 false none []))).isSome = true := by decide
theorem witness_reachable : reachable State.reset := ⟨[], [], 0, rfl⟩

/-- The invariant of the reset state with launches and answers still to come. -/
theorem hosting_inv (l : Launch Config.default) (a : List Answer) : Inv (hosting l a).toMachineState where
  position := by constructor <;> simp [hosting, State.reset, MachineState.reset]
  waiting := by simp [hosting, State.reset, MachineState.reset, MachineState.busy]
  cause := by intro _; rfl
  config := by intro h; exact absurd rfl h
  payload := by show Memory.wf Config.default [] = true; decide
  flight := by simp [hosting, State.reset, MachineState.reset]
  noFlight := by intro _; rfl
  carrier := by intro h; exact absurd rfl h

/-- A launch of no bits and one iteration: three requests, answered `OK`. -/
theorem witness_callEmitsTrain : let s := hosting emptyLaunch [.ok, .ok, .ok]
    (s.phase = .idle ∧ s.pend = false ∧ s.hostWait = false ∧ s.drvChan = none) ∧ s.hostQueue = emptyLaunch :: [] ∧
      decode (.cmd emptyLaunch.words) = .ok (.transmit (desc 0 0)) ∧
      configFault Config.default (desc 0 0).operands = none ∧
      (desc 0 0).operands.nbytes.toNat ≤ emptyLaunch.payload.length ∧
      s.drvAnswers = List.replicate (callLength (desc 0 0).operands) .ok ++ [] := by decide
/-- The same launch with its last request failed. -/
theorem witness_faultedCall : let s := hosting emptyLaunch [.ok, .ok, .fault]
    2 < callLength (desc 0 0).operands ∧ s.drvAnswers = List.replicate 2 .ok ++ .fault :: [] := by decide
/-- The last bit of the last consumed byte. -/
theorem witness_emissionOrder : let m : Memory := [(0, 0xA5#8), (1, 0x0F#8)]
    Memory.wf Config.default m = true ∧ (small 2 1 0).order = 0#1 ∧ (small 2 1 1).order = 1#1 ∧ (small 2 1 0).nbytes.toNat ≤ m.length ∧
      (15#19).toNat < 8 * (small 2 1 0).nbytes.toNat ∧ Memory.read m ((15#19).toNat / 8) = some 0x0F#8 := by decide
/-- Two buffers that differ only beyond `NBYTES`. -/
theorem witness_bytesBeyond :
    let s := { running .bitSpace 0 7 false none [] with ops := small 1 1 0 }
    PositionInv s.toMachineState ∧ s.phase ≠ .idle ∧
      (∀ a, a < s.ops.nbytes.toNat → Memory.read [(0, 0xA5#8), (1, 0xFF#8)] a = Memory.read s.payload a) ∧
      (nextOf (step s)).isSome = true := by
  refine ⟨?_, by decide, ?_, by decide⟩
  · constructor <;> simp [running, small]
  · intro a h
    have h : a < 1 := h
    obtain rfl : a = 0 := by omega
    decide
theorem witness_phasesIndependent : Inv (hosting emptyLaunch [.ok]).toMachineState ∧ (hosting emptyLaunch [.ok]).phase = .idle ∧
    (desc 1 0).operands.nbytes.toNat ≤ [0x00#8].length ∧
    (desc 1 0).operands.nbytes.toNat ≤ [0xFF#8].length ∧
    ∃ t, stepsTo 1 { hosting emptyLaunch [.ok] with hostQueue := [⟨desc 1 0, [0x00#8]⟩] } t :=
  ⟨hosting_inv _ _, rfl, by decide, by decide, _, _, rfl, rfl⟩
theorem witness_trainLongEnough : (small 2 1 0).nbytes.toNat ≤ [((0 : Nat), 0xA5#8), (1, 0x0F#8)].length := by decide
theorem witness_decodeTrain : (small 2 1 0).os ≠ (small 2 1 0).zs := by decide
/-- The last index of the port, and the first beyond it. -/
theorem witness_portBounds : 65535 < 2 ^ 16 ∧ 2 ^ 16 ≤ 65536 := by decide

end Sys2Proof.Tests
end

section
/-! PROOF. The fields of the status view (10_state.md R32). -/

namespace Sys2Proof.Machine

variable {cfg : Config}

/-- The view's four fields, laid side by side, are read back at bits 7, 6, 5 to 3 and 2 to 0 (R32). -/
theorem status_word_fields (busy pend : BitVec 1) (phase cause : BitVec 3) :
    (busy ++ pend ++ phase ++ cause).extractLsb' 7 1 = busy ∧
      (busy ++ pend ++ phase ++ cause).extractLsb' 6 1 = pend ∧
      (busy ++ pend ++ phase ++ cause).extractLsb' 3 3 = phase ∧
      (busy ++ pend ++ phase ++ cause).extractLsb' 0 3 = cause := by
  refine ⟨?_, ?_, ?_, BitVec.extractLsb'_append_eq_right⟩
  · rw [BitVec.extractLsb'_append_eq_of_le (by omega), BitVec.extractLsb'_append_eq_of_le (by omega)]
    exact BitVec.extractLsb'_append_eq_left
  · rw [BitVec.extractLsb'_append_eq_of_le (by omega), BitVec.extractLsb'_append_eq_of_le (by omega)]
    exact BitVec.extractLsb'_append_eq_right
  · rw [BitVec.extractLsb'_append_eq_of_le (by omega)]
    exact BitVec.extractLsb'_append_eq_right

/-- `BUSY` is clear exactly in `IDLE` (R29). -/
theorem ofBool_busy (s : MachineState cfg) :
    BitVec.ofBool s.busy = if s.phase = .idle then 0#1 else 1#1 := by
  by_cases h : s.phase = .idle <;> simp [MachineState.busy, h]

theorem ofBool_eq_ite (b : Bool) : BitVec.ofBool b = if b = true then 1#1 else 0#1 := by
  cases b <;> rfl

/-- Settles O45: the view is the four fields side by side. -/
theorem statusViewFields : Obligations.StatusViewFields := by
  intro cfg s
  rw [← ofBool_busy, ← ofBool_eq_ite]
  exact status_word_fields _ _ _ _

end Sys2Proof.Machine
end

section
/-! PROOF. The operand registers (10_state.md R21): every operation but `TRANSMIT` leaves them, and an accepted descriptor
writes all eleven or none. -/

namespace Sys2Proof.Machine

variable {cfg : Config}

/-- A next state of the default platform's answer is one of the operation's. -/
theorem ofDefault_eq_next_iff (r : ResultOn Config.default) (t : State) :
    Result.ofDefault r = .next t ↔ r = .next t.toMachineState := by
  obtain ⟨m⟩ := t
  cases r <;> simp [Result.ofDefault]

@[simp] theorem headerSpaceNext_ops (s : MachineState cfg) : (headerSpaceNext s).ops = s.ops := by
  obtain ⟨-, e⟩ | ⟨-, e⟩ := headerSpaceNext_cases s <;> rw [e]

@[simp] theorem bitSpaceNext_ops (s : MachineState cfg) : (bitSpaceNext s).ops = s.ops := by
  obtain ⟨-, e⟩ | ⟨-, e⟩ := bitSpaceNext_cases s <;> rw [e]

@[simp] theorem gapNext_ops (s : MachineState cfg) : (gapNext s).ops = s.ops := by
  obtain ⟨-, e⟩ | ⟨-, e⟩ := gapNext_cases s
  · rw [e]
  · rw [e, respond_ops]

variable {nxt : MachineState cfg → MachineState cfg}

/-- A completion step leaves the operand registers where moving on to the next position does. -/
theorem complete_ops (hn : ∀ u, (nxt u).ops = u.ops) (s : MachineState cfg) : (complete nxt s).ops = s.ops := by
  obtain ⟨-, e⟩ | ⟨rest, -, e⟩ | ⟨rest, -, e⟩ := complete_cases nxt s <;> rw [e]
  · exact hn _
  · rfl

theorem phaseOperation_ops {p : Phase} {req : Option (Request cfg)} {s t : MachineState cfg}
    (hn : ∀ u, (nxt u).ops = u.ops) (h : phaseOperation p req nxt s = .next t) : t.ops = s.ops := by
  obtain ⟨-, ⟨-, rfl⟩ | ⟨q, -, -, rfl⟩⟩ := phaseOperation_cases h
  · exact complete_ops hn s
  · rfl

theorem completeCurrent_ops {s t : MachineState cfg} (h : completeCurrent s = .next t) : t.ops = s.ops := by
  obtain ⟨-, rfl⟩ | ⟨-, rfl⟩ | ⟨-, rfl⟩ | ⟨-, rfl⟩ | ⟨-, rfl⟩ := completeCurrent_cases h
  · exact complete_ops headerMarkNext_ops s
  · exact complete_ops headerSpaceNext_ops s
  · exact complete_ops bitMarkNext_ops s
  · exact complete_ops bitSpaceNext_ops s
  · exact complete_ops gapNext_ops s

theorem carryOut_ops {q : Request cfg} {s t : MachineState cfg} (h : carryOut q s = .next t) : t.ops = s.ops := by
  obtain ⟨-, -, hc⟩ := carryOut_cases h
  exact completeCurrent_ops hc

/-- Every operation but `TRANSMIT` leaves the operand registers (R21). -/
theorem exec_ops_of_ne_transmit {i : Instr} {s t : State} (hi : ∀ d, i ≠ .transmit d) (h : exec i s = .next t) :
    t.ops = s.ops := by
  cases i with
  | transmit d => exact absurd rfl (hi d)
  | headerMark => exact phaseOperation_ops headerMarkNext_ops ((ofDefault_eq_next_iff _ _).mp h)
  | headerSpace => exact phaseOperation_ops headerSpaceNext_ops ((ofDefault_eq_next_iff _ _).mp h)
  | bitMark => exact phaseOperation_ops bitMarkNext_ops ((ofDefault_eq_next_iff _ _).mp h)
  | bitSpace => exact phaseOperation_ops bitSpaceNext_ops ((ofDefault_eq_next_iff _ _).mp h)
  | gap => exact phaseOperation_ops gapNext_ops ((ofDefault_eq_next_iff _ _).mp h)
  | mark d f c => exact carryOut_ops ((ofDefault_eq_next_iff _ _).mp h)
  | space d => exact carryOut_ops ((ofDefault_eq_next_iff _ _).mp h)

/-- A legal descriptor's operands are latched, whether or not they pass the check; an illegal one writes none (R102, R107). -/
theorem acceptDescriptor_ops (d : Descriptor cfg) (s : MachineState cfg) :
    (acceptDescriptor cfg d s).ops = if d.op = opTransmit ∧ d.reserved = 0#15 then d.operands else s.ops := by
  simp only [← legalDescriptor_iff]
  obtain ⟨hl, e⟩ | ⟨c, hl, -, e⟩ | ⟨hl, -, e⟩ := acceptDescriptor_cases d s <;> simp [hl, e]

/-- A step of a running call leaves the operand registers, on every platform. -/
theorem stepOn_ops_of_running {s t : MachineState cfg} (hs : s.phase ≠ .idle) (h : stepOn cfg s = .next t) :
    t.ops = s.ops := by
  obtain ⟨-, rfl⟩ | ⟨l, rest, -, hidle, -⟩ | ⟨q, -, -, -, rfl⟩ | ⟨q, -, -, hc⟩ := stepOn_cases h
  · rfl
  · exact absurd hidle hs
  · rfl
  · exact completeCurrent_ops hc

/-- Settles O25: operation by operation, and for a running call by what one step can do. -/
theorem operandsWrittenByTransmitOnly : Obligations.OperandsWrittenByTransmitOnly := by
  refine ⟨fun i s t hi h => exec_ops_of_ne_transmit hi h, fun d s t h => ?_, fun s t hs h => ?_⟩
  · obtain ⟨-, -, e⟩ := transmit_cases ((ofDefault_eq_next_iff _ _).mp h)
    rw [e]
    exact acceptDescriptor_ops d s.toMachineState
  · exact stepOn_ops_of_running hs ((step_eq_next_iff s t).mp h)

end Sys2Proof.Machine
end

section
/-! PROOF. What one step does to `CAUSE`, together with the phase and the responses (10_state.md R31): four kinds of effect,
and every step of the machine has one of them. -/

namespace Sys2Proof.Machine

variable {cfg : Config}

/-- What a step from `s` to `t` does to `CAUSE`, to the phase and to the responses. -/
inductive CauseEffect (s t : MachineState cfg) : Prop where
  /-- neither `CAUSE` nor the responses change, and no call starts -/
  | quiet (phase : t.phase ≠ .idle → s.phase ≠ .idle) (cause : t.cause = s.cause)
      (responses : t.responses = s.responses)
  /-- a valid start (40_transmit_command.md R104) -/
  | start (idle : s.phase = .idle) (phase : t.phase = .headerMark) (cause : t.cause = .none)
      (responses : t.responses = s.responses)
  /-- an abort (60_exceptions.md R156): the response is the fault code written -/
  | abort (phase : t.phase = .idle) (cause : t.cause ≠ .none) (responses : t.responses = s.responses ++ [t.cause])
  /-- the end of a call (41_sequencer_phases.md R122): `CAUSE` is left as it is, and the response is 0 -/
  | finish (running : s.phase ≠ .idle) (phase : t.phase = .idle) (cause : t.cause = s.cause)
      (responses : t.responses = s.responses ++ [.none])

/-- The configuration check fails with a fault code, never with 0 (R103). -/
theorem configFault_ne_some_none (r : OperandRegs cfg) : configFault cfg r ≠ some .none := by
  unfold configFault
  split
  · simp
  · split
    · simp
    · split <;> simp

theorem raise_causeEffect {c : Cause} {s u : MachineState cfg} (hc : c ≠ .none) (hr : u.responses = s.responses) :
    CauseEffect s (raise c u) :=
  .abort rfl hc (by simp [hr])

/-- A `TRANSMIT` step is a valid start or an abort. -/
theorem acceptDescriptor_causeEffect {d : Descriptor cfg} {s u : MachineState cfg} (hs : s.phase = .idle)
    (hr : u.responses = s.responses) : CauseEffect s (acceptDescriptor cfg d u) := by
  obtain ⟨-, e⟩ | ⟨c, -, hc, e⟩ | ⟨-, -, e⟩ := acceptDescriptor_cases d u <;> rw [e]
  · exact raise_causeEffect (by decide) hr
  · exact raise_causeEffect (fun hn => configFault_ne_some_none d.operands (hn ▸ hc)) hr
  · exact .start hs rfl rfl hr

theorem headerMarkNext_causeEffect {s : MachineState cfg} (hs : s.phase ≠ .idle) :
    CauseEffect s (headerMarkNext s) :=
  .quiet (fun _ => hs) rfl rfl

theorem headerSpaceNext_causeEffect {s : MachineState cfg} (hs : s.phase ≠ .idle) :
    CauseEffect s (headerSpaceNext s) := by
  obtain ⟨-, e⟩ | ⟨-, e⟩ := headerSpaceNext_cases s <;> rw [e] <;> exact .quiet (fun _ => hs) rfl rfl

theorem bitMarkNext_causeEffect {s : MachineState cfg} (hs : s.phase ≠ .idle) : CauseEffect s (bitMarkNext s) :=
  .quiet (fun _ => hs) rfl rfl

theorem bitSpaceNext_causeEffect {s : MachineState cfg} (hs : s.phase ≠ .idle) :
    CauseEffect s (bitSpaceNext s) := by
  obtain ⟨-, e⟩ | ⟨-, e⟩ := bitSpaceNext_cases s <;> rw [e] <;> exact .quiet (fun _ => hs) rfl rfl

/-- The gap is followed by the next iteration or by the end of the call (R121, R122). -/
theorem gapNext_causeEffect {s : MachineState cfg} (hs : s.phase ≠ .idle) : CauseEffect s (gapNext s) := by
  obtain ⟨-, e⟩ | ⟨-, e⟩ := gapNext_cases s <;> rw [e]
  · exact .quiet (fun _ => hs) rfl rfl
  · exact .finish hs rfl rfl rfl

/-- Taking the driver's answer off its list changes nothing that a `CauseEffect` speaks of. -/
theorem CauseEffect.of_answered {s t : MachineState cfg} {rest : List Answer}
    (h : CauseEffect { s with drvAnswers := rest, drvChan := none, pend := false } t) : CauseEffect s t := by
  cases h with
  | quiet phase cause responses => exact .quiet phase cause responses
  | start idle phase cause responses => exact .start idle phase cause responses
  | abort phase cause responses => exact .abort phase cause responses
  | finish running phase cause responses => exact .finish running phase cause responses

theorem complete_causeEffect {nxt : MachineState cfg → MachineState cfg}
    (hn : ∀ {u : MachineState cfg}, u.phase ≠ .idle → CauseEffect u (nxt u)) {s : MachineState cfg}
    (hs : s.phase ≠ .idle) : CauseEffect s (complete nxt s) := by
  obtain ⟨-, e⟩ | ⟨rest, -, e⟩ | ⟨rest, -, e⟩ := complete_cases nxt s <;> rw [e]
  · exact .quiet id rfl rfl
  · have hu := hn (u := { s with drvAnswers := rest, drvChan := none, pend := false }) hs
    exact hu.of_answered
  · exact raise_causeEffect (by decide) rfl

theorem completeCurrent_causeEffect {s t : MachineState cfg} (h : completeCurrent s = .next t) :
    CauseEffect s t := by
  obtain ⟨hp, rfl⟩ | ⟨hp, rfl⟩ | ⟨hp, rfl⟩ | ⟨hp, rfl⟩ | ⟨hp, rfl⟩ := completeCurrent_cases h
  · exact complete_causeEffect headerMarkNext_causeEffect (by simp [hp])
  · exact complete_causeEffect headerSpaceNext_causeEffect (by simp [hp])
  · exact complete_causeEffect bitMarkNext_causeEffect (by simp [hp])
  · exact complete_causeEffect bitSpaceNext_causeEffect (by simp [hp])
  · exact complete_causeEffect gapNext_causeEffect (by simp [hp])

/-- Every step, on every platform, has one of the four effects. -/
theorem stepOn_causeEffect {s t : MachineState cfg} (h : stepOn cfg s = .next t) : CauseEffect s t := by
  obtain ⟨-, rfl⟩ | ⟨l, rest, -, hidle, -, -, rfl⟩ | ⟨q, -, -, -, rfl⟩ | ⟨q, -, -, hc⟩ := stepOn_cases h
  · exact .quiet id rfl rfl
  · exact acceptDescriptor_causeEffect hidle rfl
  · exact .quiet id rfl rfl
  · exact completeCurrent_causeEffect hc

/-- `CAUSE` changes only by a valid start, which clears it, and by an abort, which sends it (R31). -/
theorem CauseEffect.of_cause_ne {s t : MachineState cfg} (h : CauseEffect s t) (hne : t.cause ≠ s.cause) :
    (s.phase = .idle ∧ t.phase = .headerMark ∧ t.cause = .none) ∨
      (t.phase = .idle ∧ t.cause ≠ .none ∧ t.responses = s.responses ++ [t.cause]) := by
  cases h with
  | quiet _ cause _ => exact absurd cause hne
  | start idle phase cause _ => exact .inl ⟨idle, phase, cause⟩
  | abort phase cause responses => exact .inr ⟨phase, cause, responses⟩
  | finish _ _ cause _ => exact absurd cause hne

/-- Where `CAUSE` is 0 while a call runs, it is so after the step (R31). -/
theorem CauseEffect.cause_eq_none {s t : MachineState cfg} (h : CauseEffect s t)
    (hs : s.phase ≠ .idle → s.cause = .none) (ht : t.phase ≠ .idle) : t.cause = .none := by
  cases h with
  | quiet phase cause _ => exact cause.trans (hs (phase ht))
  | start _ _ cause _ => exact cause
  | abort phase _ _ => exact absurd phase ht
  | finish _ phase _ _ => exact absurd phase ht

/-- Where `CAUSE` is 0 while a call runs, a response carries the new `CAUSE` (R31, R106). -/
theorem CauseEffect.cause_eq_response {s t : MachineState cfg} {c : Cause} (h : CauseEffect s t)
    (hs : s.phase ≠ .idle → s.cause = .none) (hc : t.responses = s.responses ++ [c]) : t.cause = c := by
  cases h with
  | quiet _ _ responses => simp [responses] at hc
  | start _ _ _ responses => simp [responses] at hc
  | abort _ _ responses => simpa [responses] using hc
  | finish running _ cause responses =>
    rw [cause, hs running]
    simpa [responses] using hc

end Sys2Proof.Machine
end

section
/-! PROOF. No step reads `CAUSE` (10_state.md R31): with another value in it every step does the same, up to the value of
`CAUSE` itself. -/

namespace Sys2Proof.Machine

variable {cfg : Config}

/-- The state with another value in `CAUSE`. -/
def setCause (c : Cause) (s : MachineState cfg) : MachineState cfg := { s with cause := c }

@[simp] theorem setCause_ops (c : Cause) (s : MachineState cfg) : (setCause c s).ops = s.ops := rfl
@[simp] theorem setCause_phase (c : Cause) (s : MachineState cfg) : (setCause c s).phase = s.phase := rfl
@[simp] theorem setCause_pend (c : Cause) (s : MachineState cfg) : (setCause c s).pend = s.pend := rfl
@[simp] theorem setCause_self (s : MachineState cfg) : setCause s.cause s = s := rfl
theorem turn_setCause (c : Cause) (s : MachineState cfg) : turn (setCause c s) = turn s := rfl

/-- A move to another position that does not read `CAUSE` and leaves it. -/
def CauseNeutral (nxt : MachineState cfg → MachineState cfg) : Prop :=
  ∀ c s, nxt (setCause c s) = setCause c (nxt s)

/-- An operation that does not read `CAUSE`: whatever it holds, the next state differs in `CAUSE` at most. -/
def CauseBlind (f : MachineState cfg → ResultOn cfg) : Prop :=
  ∀ s t c, f s = .next t → ∃ c', f (setCause c s) = .next (setCause c' t)

theorem headerMarkNext_causeNeutral : CauseNeutral (headerMarkNext (cfg := cfg)) := fun _ _ => rfl

theorem headerSpaceNext_causeNeutral : CauseNeutral (headerSpaceNext (cfg := cfg)) := by
  intro c s
  rw [headerSpaceNext, headerSpaceNext, apply_ite (setCause c)]
  rfl

theorem bitMarkNext_causeNeutral : CauseNeutral (bitMarkNext (cfg := cfg)) := fun _ _ => rfl

theorem bitSpaceNext_causeNeutral : CauseNeutral (bitSpaceNext (cfg := cfg)) := by
  intro c s
  rw [bitSpaceNext, bitSpaceNext, apply_ite (setCause c)]
  rfl

theorem gapNext_causeNeutral : CauseNeutral (gapNext (cfg := cfg)) := by
  intro c s
  rw [gapNext, gapNext, apply_ite (setCause c)]
  rfl

theorem complete_of_silent {nxt : MachineState cfg → MachineState cfg} {s : MachineState cfg}
    (h : s.drvAnswers = []) : complete nxt s = s := by
  simp only [complete, h]

theorem complete_of_ok {nxt : MachineState cfg → MachineState cfg} {s : MachineState cfg} {rest : List Answer}
    (h : s.drvAnswers = .ok :: rest) :
    complete nxt s = nxt { s with drvAnswers := rest, drvChan := none, pend := false } := by
  simp only [complete, h]

theorem complete_of_fault {nxt : MachineState cfg → MachineState cfg} {s : MachineState cfg} {rest : List Answer}
    (h : s.drvAnswers = .fault :: rest) :
    complete nxt s = raise .drvFault { s with drvAnswers := rest, drvChan := none, pend := false } := by
  simp only [complete, h]

/-- A completion step does not read `CAUSE`; the abort of a `FAULT` writes it (R115, R157). -/
theorem complete_setCause {nxt : MachineState cfg → MachineState cfg} (hn : CauseNeutral nxt) (c : Cause)
    (s : MachineState cfg) : ∃ c', complete nxt (setCause c s) = setCause c' (complete nxt s) := by
  cases ha : s.drvAnswers with
  | nil => exact ⟨c, by rw [complete_of_silent ha, complete_of_silent (s := setCause c s) ha]⟩
  | cons a rest =>
    cases a with
    | ok => exact ⟨c, by rw [complete_of_ok ha, complete_of_ok (s := setCause c s) ha, ← hn]; rfl⟩
    | fault => exact ⟨.drvFault, by rw [complete_of_fault ha, complete_of_fault (s := setCause c s) ha]; rfl⟩

/-- A phase operation whose request is the same with another `CAUSE` does not read it. -/
theorem phaseOperation_causeBlind {p : Phase} {req : MachineState cfg → Option (Request cfg)}
    {nxt : MachineState cfg → MachineState cfg} (hq : ∀ c s, req (setCause c s) = req s) (hn : CauseNeutral nxt) :
    CauseBlind fun s => phaseOperation p (req s) nxt s := by
  intro s t c h
  obtain ⟨hp, ⟨hb, rfl⟩ | ⟨q, hb, hr, rfl⟩⟩ := phaseOperation_cases h
  · obtain ⟨c', e⟩ := complete_setCause hn c s
    exact ⟨c', by simp only [phaseOperation, setCause_phase, setCause_pend, hp, hb, if_true, e]⟩
  · exact ⟨c, by simp only [phaseOperation, setCause_phase, setCause_pend, hp, hb, hq, hr]; rfl⟩

/-- The operation that a phase selects does not read `CAUSE`. -/
theorem phaseOp_causeBlind (p : Phase) : CauseBlind (phaseOp (cfg := cfg) p) := by
  cases p with
  | idle => intro s t c h; cases h
  | headerMark =>
    exact phaseOperation_causeBlind (req := fun s => some (headerMarkReq s.ops)) (fun _ _ => rfl) headerMarkNext_causeNeutral
  | headerSpace =>
    exact phaseOperation_causeBlind (req := fun s => some (headerSpaceReq s.ops)) (fun _ _ => rfl) headerSpaceNext_causeNeutral
  | bitMark =>
    exact phaseOperation_causeBlind (req := fun s => some (bitMarkReq s.ops)) (fun _ _ => rfl) bitMarkNext_causeNeutral
  | bitSpace =>
    exact phaseOperation_causeBlind (req := currentBitSpaceReq) (fun _ _ => rfl) bitSpaceNext_causeNeutral
  | gap =>
    exact phaseOperation_causeBlind (req := fun s => some (gapReq s.ops)) (fun _ _ => rfl) gapNext_causeNeutral

theorem completeCurrent_causeBlind : CauseBlind (completeCurrent (cfg := cfg)) := by
  intro s t c h
  obtain ⟨hp, rfl⟩ | ⟨hp, rfl⟩ | ⟨hp, rfl⟩ | ⟨hp, rfl⟩ | ⟨hp, rfl⟩ := completeCurrent_cases h <;>
    simp only [completeCurrent, setCause_phase, hp, Host.Outcome.next.injEq]
  · exact complete_setCause headerMarkNext_causeNeutral c s
  · exact complete_setCause headerSpaceNext_causeNeutral c s
  · exact complete_setCause bitMarkNext_causeNeutral c s
  · exact complete_setCause bitSpaceNext_causeNeutral c s
  · exact complete_setCause gapNext_causeNeutral c s

theorem carryOut_causeBlind (q : Request cfg) : CauseBlind (carryOut q) := by
  intro s t c h
  obtain ⟨hp, hd, hc⟩ := carryOut_cases h
  obtain ⟨c', e⟩ := completeCurrent_causeBlind s t c hc
  exact ⟨c', by rw [carryOut, if_pos ⟨hp, hd⟩, e]⟩

theorem checkAndStart_setCause (c : Cause) (s : MachineState cfg) :
    checkAndStart cfg (setCause c s) = checkAndStart cfg s := by
  obtain ⟨f, hf, e⟩ | ⟨hf, e⟩ := checkAndStart_cases s <;> rw [e, checkAndStart, setCause_ops, hf] <;> rfl

/-- An accepted descriptor overwrites `CAUSE` in every case (R103, R104, R107). -/
theorem acceptDescriptor_setCause (d : Descriptor cfg) (c : Cause) (s : MachineState cfg) :
    acceptDescriptor cfg d (setCause c s) = acceptDescriptor cfg d s := by
  cases hl : legalDescriptor d <;> simp only [acceptDescriptor, hl]
  · rfl
  · exact checkAndStart_setCause c (latch d (clearTrace s))

theorem transmit_causeBlind (d : Descriptor cfg) : CauseBlind (transmit cfg d) := by
  intro s t c h
  obtain ⟨hp, hw, rfl⟩ := transmit_cases h
  refine ⟨(acceptDescriptor cfg d s).cause, ?_⟩
  rw [transmit, if_pos ⟨hp, hw⟩, acceptDescriptor_setCause, setCause_self]

/-- One step, on every platform, does not read `CAUSE` (R31). -/
theorem stepOn_causeBlind : CauseBlind (stepOn cfg) := by
  intro s t c
  unfold stepOn
  rw [turn_setCause]
  cases turn s with
  | nobody =>
    rintro ⟨⟩
    exact ⟨c, rfl⟩
  | driver q => cases q <;> exact carryOut_causeBlind _ s t c
  | sequencer p => exact phaseOp_causeBlind p s t c
  | host l rest => exact transmit_causeBlind l.desc (hostSends l rest s) t c

/-- Settles O27: the first, third and fourth clause by the effect a step has, the second by `stepOn_causeBlind`. -/
theorem causeWrittenByStartAndAbortNeverRead : Obligations.CauseWrittenByStartAndAbortNeverRead := by
  refine ⟨fun s t h => ?_, fun s t c h => ?_, fun s t hi h => ?_, fun s t c hi h => ?_⟩
  · exact (stepOn_causeEffect ((step_eq_next_iff s t).mp h)).of_cause_ne
  · obtain ⟨c', e⟩ := stepOn_causeBlind _ _ c ((step_eq_next_iff s t).mp h)
    exact ⟨c', (step_eq_next_iff _ _).mpr e⟩
  · exact (stepOn_causeEffect ((step_eq_next_iff s t).mp h)).cause_eq_none hi.cause
  · exact (stepOn_causeEffect ((step_eq_next_iff s t).mp h)).cause_eq_response hi.cause

end Sys2Proof.Machine
end

section
/-! PROOF. The order of emission (20_memory.md R53, R54): the bit iterator and the closed-form bit sequence both give, for flat
index `i`, one bit of byte `i div 8`, and `ORDER` alone decides which. -/

namespace Sys2Proof.Machine

variable {cfg : Config}

/-- The place in its byte of the bit emitted in position `k` (R53, R54). -/
def emittedPlace (order : BitVec 1) (k : Nat) : Nat := if order = 0#1 then 7 - k else k

theorem selectBit_eq (order : BitVec 1) (b : Byte) (k : BitVec 3) :
    selectBit order b k = b.getLsbD (emittedPlace order k.toNat) := by
  have hk : (7#3 - k).toNat = 7 - k.toNat := by bv_omega
  rw [selectBit, emittedPlace, hk, apply_ite b.getLsbD]

theorem byteBits_eq_map (order : BitVec 1) (b : Byte) :
    byteBits order b = (List.range 8).map fun k => b.getLsbD (emittedPlace order k) := by
  by_cases h : order = 0#1 <;> simp only [byteBits, emittedPlace, h, if_true, if_false] <;> rfl

@[simp] theorem byteBits_length (order : BitVec 1) (b : Byte) : (byteBits order b).length = 8 := by
  simp [byteBits_eq_map]

theorem byteBits_getElem? (order : BitVec 1) (b : Byte) {k : Nat} (hk : k < 8) :
    (byteBits order b)[k]? = some (b.getLsbD (emittedPlace order k)) := by
  simp [byteBits_eq_map, hk]

/-- In a concatenation of blocks of one length `n`, entry `i` is entry `i mod n` of block `i div n`. -/
theorem flatMap_getElem?_of_length_eq {α β : Type} {f : α → List β} {n : Nat} (hn : 0 < n)
    (hf : ∀ a, (f a).length = n) (l : List α) (i : Nat) :
    (l.flatMap f)[i]? = l[i / n]?.bind fun a => (f a)[i % n]? := by
  induction l generalizing i with
  | nil => simp
  | cons a l ih =>
    rw [List.flatMap_cons]
    by_cases hi : i < n
    · rw [List.getElem?_append_left (by rw [hf]; exact hi), Nat.div_eq_of_lt hi, Nat.mod_eq_of_lt hi]
      rfl
    · have hle : n ≤ i := Nat.le_of_not_lt hi
      rw [List.getElem?_append_right (by rw [hf]; exact hle), hf, ih, Nat.div_eq_sub_div hn hle,
        List.getElem?_cons_succ, Nat.mod_eq_sub_mod hle]

/-- A consumed byte is the one the read port gives at its index (R52, R57). -/
theorem consumedBytes_getElem? {r : OperandRegs cfg} {m : Memory} (hm : Memory.wf cfg m = true) {a : Nat}
    (ha : a < r.nbytes.toNat) : (consumedBytes r m)[a]? = Memory.read m a := by
  rw [consumedBytes, read_of_wf hm, List.map_take, List.getElem?_take_of_lt ha]

theorem payloadBit_of_read {nw : Nat} {order : BitVec 1} {m : Memory} {i : BitVec (nw + 3)} {b : Byte}
    (hb : Memory.read m (i.toNat / 8) = some b) :
    payloadBit order m i = some (b.getLsbD (emittedPlace order (i.toNat % 8))) := by
  rw [← byteIndex_toNat] at hb
  simp only [payloadBit, hb, selectBit_eq, bitInByte_toNat]

theorem commandBits_of_read {r : OperandRegs cfg} {m : Memory} (hm : Memory.wf cfg m = true) {i : Nat} {b : Byte}
    (hi : i < 8 * r.nbytes.toNat) (hb : Memory.read m (i / 8) = some b) :
    (commandBits r m)[i]? = some (b.getLsbD (emittedPlace r.order (i % 8))) := by
  rw [commandBits, flatMap_getElem?_of_length_eq (by decide) (byteBits_length r.order),
    consumedBytes_getElem? hm (by omega), hb]
  exact byteBits_getElem? r.order b (Nat.mod_lt i (by decide))

/-- Settles O37: with `ORDER = 0` the bit in position `k` is bit `7 - k` of its byte. -/
theorem msbFirstEmissionOrder : Obligations.MsbFirstEmissionOrder := by
  refine ⟨fun cfg r m i b hm ho _ hi hb => ?_, by decide⟩
  have place : emittedPlace r.order (i.toNat % 8) = 7 - i.toNat % 8 := if_pos ho
  rw [← place]
  exact ⟨payloadBit_of_read hb, commandBits_of_read hm hi hb⟩

/-- Settles O38: with `ORDER = 1` the bit in position `k` is bit `k` of its byte. -/
theorem lsbFirstEmissionOrder : Obligations.LsbFirstEmissionOrder := by
  refine ⟨fun cfg r m i b hm ho _ hi hb => ?_, by decide⟩
  have place : emittedPlace r.order (i.toNat % 8) = i.toNat % 8 := if_neg (by rw [ho]; decide)
  have hp := payloadBit_of_read (order := r.order) hb
  have hc := commandBits_of_read hm hi hb
  rw [place] at hp hc
  exact ⟨hp, hc⟩

end Sys2Proof.Machine
end

section
/-! PROOF. Who reads the payload (20_memory.md R51, R52): an operation for which the request of `BIT_SPACE` is the same does the
same with another payload in place, and leaves that payload there. With the state's own payload in place this says that no
operation writes it. -/

namespace Sys2Proof.Machine

variable {cfg : Config}

/-- The state with another buffer bound to the read port. -/
def setPayload (m : Memory) (s : MachineState cfg) : MachineState cfg := { s with payload := m }

@[simp] theorem setPayload_ops (m : Memory) (s : MachineState cfg) : (setPayload m s).ops = s.ops := rfl
@[simp] theorem setPayload_phase (m : Memory) (s : MachineState cfg) : (setPayload m s).phase = s.phase := rfl
@[simp] theorem setPayload_pend (m : Memory) (s : MachineState cfg) : (setPayload m s).pend = s.pend := rfl
theorem turn_setPayload (m : Memory) (s : MachineState cfg) : turn (setPayload m s) = turn s := rfl

/-- An update that neither reads the payload nor writes it. -/
def PayloadNeutral (f : MachineState cfg → MachineState cfg) : Prop :=
  ∀ m s, f (setPayload m s) = setPayload m (f s)

/-- With the buffer `m` in place the operation does the same from `s`, and leaves `m` there. -/
def SameWithPayload (m : Memory) (s : MachineState cfg) (f : MachineState cfg → ResultOn cfg) : Prop :=
  ∀ t, f s = .next t → f (setPayload m s) = .next (setPayload m t)

theorem headerMarkNext_payloadNeutral : PayloadNeutral (headerMarkNext (cfg := cfg)) := fun _ _ => rfl

theorem headerSpaceNext_payloadNeutral : PayloadNeutral (headerSpaceNext (cfg := cfg)) := by
  intro m s
  rw [headerSpaceNext, headerSpaceNext, apply_ite (setPayload m)]
  rfl

theorem bitMarkNext_payloadNeutral : PayloadNeutral (bitMarkNext (cfg := cfg)) := fun _ _ => rfl

theorem bitSpaceNext_payloadNeutral : PayloadNeutral (bitSpaceNext (cfg := cfg)) := by
  intro m s
  rw [bitSpaceNext, bitSpaceNext, apply_ite (setPayload m)]
  rfl

theorem gapNext_payloadNeutral : PayloadNeutral (gapNext (cfg := cfg)) := by
  intro m s
  rw [gapNext, gapNext, apply_ite (setPayload m)]
  rfl

/-- A completion step reads no payload, whatever the driver's answer (R115, R145, R157). -/
theorem complete_payloadNeutral {nxt : MachineState cfg → MachineState cfg} (hn : PayloadNeutral nxt) :
    PayloadNeutral (complete nxt) := by
  intro m s
  cases ha : s.drvAnswers with
  | nil => rw [complete_of_silent ha, complete_of_silent (s := setPayload m s) ha]
  | cons a rest =>
    cases a with
    | ok => rw [complete_of_ok ha, complete_of_ok (s := setPayload m s) ha, ← hn]; rfl
    | fault => rw [complete_of_fault ha, complete_of_fault (s := setPayload m s) ha]; rfl

theorem checkAndStart_payloadNeutral : PayloadNeutral (checkAndStart cfg) := by
  intro m s
  obtain ⟨c, hc, e⟩ | ⟨hc, e⟩ := checkAndStart_cases s <;> rw [e, checkAndStart, setPayload_ops, hc] <;> rfl

/-- A descriptor is accepted or refused without reading the payload (R102, R103, R107). -/
theorem acceptDescriptor_payloadNeutral (d : Descriptor cfg) : PayloadNeutral (acceptDescriptor cfg d) := by
  intro m s
  cases hl : legalDescriptor d <;> simp only [acceptDescriptor, hl]
  · rfl
  · exact checkAndStart_payloadNeutral m (latch d (clearTrace s))

variable {m : Memory} {s : MachineState cfg}

theorem transmit_sameWithPayload (d : Descriptor cfg) : SameWithPayload m s (transmit cfg d) := by
  intro t h
  obtain ⟨hp, hw, rfl⟩ := transmit_cases h
  rw [transmit, if_pos ⟨hp, hw⟩, acceptDescriptor_payloadNeutral d]

/-- A phase operation reads the payload through its request only (R113, R114). -/
theorem phaseOperation_sameWithPayload {p : Phase} {req : MachineState cfg → Option (Request cfg)}
    {nxt : MachineState cfg → MachineState cfg} (hq : req (setPayload m s) = req s) (hn : PayloadNeutral nxt) :
    SameWithPayload m s fun u => phaseOperation p (req u) nxt u := by
  intro t h
  obtain ⟨hp, ⟨hb, rfl⟩ | ⟨q, hb, hr, rfl⟩⟩ := phaseOperation_cases h
  · simp only [phaseOperation, setPayload_phase, setPayload_pend, hp, hb, if_true, complete_payloadNeutral hn m s]
  · simp only [phaseOperation, setPayload_phase, setPayload_pend, hp, hb, hq, hr]; rfl

/-- Of the phase operations `BIT_SPACE` alone can read the payload, and it reads its request's bit (R119). -/
theorem phaseOp_sameWithPayload (p : Phase)
    (hq : p = .bitSpace → currentBitSpaceReq (setPayload m s) = currentBitSpaceReq s) :
    SameWithPayload m s (phaseOp p) := by
  cases p with
  | idle => intro t h; cases h
  | headerMark =>
    exact phaseOperation_sameWithPayload (req := fun u => some (headerMarkReq u.ops)) rfl headerMarkNext_payloadNeutral
  | headerSpace =>
    exact phaseOperation_sameWithPayload (req := fun u => some (headerSpaceReq u.ops)) rfl headerSpaceNext_payloadNeutral
  | bitMark =>
    exact phaseOperation_sameWithPayload (req := fun u => some (bitMarkReq u.ops)) rfl bitMarkNext_payloadNeutral
  | bitSpace => exact phaseOperation_sameWithPayload (hq rfl) bitSpaceNext_payloadNeutral
  | gap => exact phaseOperation_sameWithPayload (req := fun u => some (gapReq u.ops)) rfl gapNext_payloadNeutral

theorem completeCurrent_sameWithPayload : SameWithPayload m s completeCurrent := by
  intro t h
  obtain ⟨hp, rfl⟩ | ⟨hp, rfl⟩ | ⟨hp, rfl⟩ | ⟨hp, rfl⟩ | ⟨hp, rfl⟩ := completeCurrent_cases h <;>
    simp only [completeCurrent, setPayload_phase, hp, Host.Outcome.next.injEq]
  · exact complete_payloadNeutral headerMarkNext_payloadNeutral m s
  · exact complete_payloadNeutral headerSpaceNext_payloadNeutral m s
  · exact complete_payloadNeutral bitMarkNext_payloadNeutral m s
  · exact complete_payloadNeutral bitSpaceNext_payloadNeutral m s
  · exact complete_payloadNeutral gapNext_payloadNeutral m s

theorem carryOut_sameWithPayload (q : Request cfg) : SameWithPayload m s (carryOut q) := by
  intro t h
  obtain ⟨hp, hd, hc⟩ := carryOut_cases h
  rw [carryOut, if_pos ⟨hp, hd⟩]
  exact completeCurrent_sameWithPayload t hc

/-- A buffer that holds the bytes below `NBYTES` gives `BIT_SPACE` the same request: the current bit lies in one of them
(20_memory.md R52, 10_state.md R28). -/
theorem currentBitSpaceReq_setPayload (hi : s.bitidx.toNat < 8 * s.ops.nbytes.toNat)
    (hm : ∀ a, a < s.ops.nbytes.toNat → Memory.read m a = Memory.read s.payload a) :
    currentBitSpaceReq (setPayload m s) = currentBitSpaceReq s := by
  have hr : Memory.read m (byteIndex s.bitidx).toNat = Memory.read s.payload (byteIndex s.bitidx).toNat :=
    hm _ (by rw [byteIndex_toNat]; omega)
  have hb : payloadBit s.ops.order m s.bitidx = payloadBit s.ops.order s.payload s.bitidx := by
    rw [payloadBit, payloadBit, hr]
  simp only [currentBitSpaceReq, setPayload, hb]

/-- A step of a running call reads the payload in `BIT_SPACE` only, on every platform. -/
theorem stepOn_sameWithPayload (hs : s.phase ≠ .idle)
    (hq : s.phase = .bitSpace → currentBitSpaceReq (setPayload m s) = currentBitSpaceReq s) :
    SameWithPayload m s (stepOn cfg) := by
  intro t
  unfold stepOn
  rw [turn_setPayload]
  obtain ht | ⟨q, ht, -⟩ | ⟨ht, -⟩ | ⟨l, rest, -, -, hidle, -⟩ := turn_cases s
  · rw [ht]
    rintro ⟨⟩
    rfl
  · rw [ht]
    cases q <;> exact carryOut_sameWithPayload _ t
  · rw [ht]
    exact phaseOp_sameWithPayload s.phase hq t
  · exact absurd hidle hs

/-- The same of an operation at the default parameters, on the fixed name of its state. -/
theorem SameWithPayload.ofDefault {s t : State} {f : MachineState Config.default → ResultOn Config.default}
    (hf : SameWithPayload m s.toMachineState f) (h : Result.ofDefault (f s.toMachineState) = .next t) :
    Result.ofDefault (f (setPayload m s.toMachineState)) = .next { t with payload := m } :=
  (ofDefault_eq_next_iff _ _).mpr (hf _ ((ofDefault_eq_next_iff _ _).mp h))

/-- An operation does the same with any payload in place for which `BIT_SPACE`, if it is that operation, has the same
request. -/
theorem exec_withPayload {i : Instr} {s t : State} {m : Memory}
    (hq : i = .bitSpace → currentBitSpaceReq (setPayload m s.toMachineState) = currentBitSpaceReq s.toMachineState)
    (h : exec i s = .next t) : exec i { s with payload := m } = .next { t with payload := m } := by
  cases i with
  | transmit d => exact (transmit_sameWithPayload d).ofDefault h
  | headerMark => exact (phaseOp_sameWithPayload .headerMark nofun).ofDefault h
  | headerSpace => exact (phaseOp_sameWithPayload .headerSpace nofun).ofDefault h
  | bitMark => exact (phaseOp_sameWithPayload .bitMark nofun).ofDefault h
  | bitSpace => exact (phaseOp_sameWithPayload .bitSpace fun _ => hq rfl).ofDefault h
  | gap => exact (phaseOp_sameWithPayload .gap nofun).ofDefault h
  | mark d f c => exact (carryOut_sameWithPayload (.mark d f c)).ofDefault h
  | space d => exact (carryOut_sameWithPayload (.space d)).ofDefault h

/-- No operation writes the payload (R51): with its own payload put in place each does the same. -/
theorem exec_payload {i : Instr} {s t : State} (h : exec i s = .next t) : t.payload = s.payload := by
  have e : exec i s = .next { t with payload := s.payload } := exec_withPayload (fun _ => rfl) h
  rw [Host.Outcome.next.inj (h.symm.trans e)]

/-- Settles O26: both clauses are `exec_withPayload`, the first with the state's own payload in place. -/
theorem payloadNeverWrittenReadByBitSpace : Obligations.PayloadNeverWrittenReadByBitSpace :=
  ⟨fun _ _ _ a h => congrArg (Memory.read · a) (exec_payload h),
    fun _ _ _ _ hi h => exec_withPayload (fun e => absurd e hi) h⟩

/-- Settles O39: in `BIT_SPACE` the position invariant puts the bit read into a byte below `NBYTES`. -/
theorem bytesBeyondCountNeverRead : Obligations.BytesBeyondCountNeverRead := by
  intro s t m hinv hs hm h
  have hq (hp : s.phase = .bitSpace) := currentBitSpaceReq_setPayload (hinv.bit (.inr hp)) hm
  exact (step_eq_next_iff _ _).mpr (stepOn_sameWithPayload hs hq _ ((step_eq_next_iff s t).mp h))

end Sys2Proof.Machine
end

section
/-! PROOF. The `TRANSMIT` step where it is enabled (40_transmit_command.md R101): the order of the configuration checks (R103),
the valid start (R104) and the illegal descriptor (R107). -/

namespace Sys2Proof.Machine

variable {cfg : Config}

/-- `DUTY_MAX` as a number: the duty check compares with 100 (R103). -/
theorem dutyMax_lt_iff (c : BitVec Config.DUTYW) : Config.dutyMax < c ↔ 100 < c.toNat := Iff.rfl

/-- The three checks in their order, and what follows from each (R103). -/
theorem checkAndStart_eq (s : MachineState cfg) : checkAndStart cfg s =
    if cfg.freqValid s.ops.freq = false then raise .cfgFreq s
    else if 100 < s.ops.duty.toNat then raise .cfgDuty s
    else if cfg.durValid s.ops.hm s.ops.hs s.ops.bm s.ops.os s.ops.zs s.ops.gap = false then raise .cfgTiming s
    else startCall s := by
  unfold checkAndStart configFault
  simp only [dutyMax_lt_iff]
  split_ifs <;> rfl

/-- A configuration that passes the check starts the call (R104). -/
theorem checkAndStart_of_passes {s : MachineState cfg} (h : configFault cfg s.ops = none) :
    checkAndStart cfg s = startCall s := by
  simp only [checkAndStart, h]

/-- With the default predicates the frequency check fails for 0 only, and the timing check never (R7, R103). -/
theorem checkAndStart_default_eq (s : MachineState Config.default) : checkAndStart Config.default s =
    if s.ops.freq = 0#32 then raise .cfgFreq s
    else if 100 < s.ops.duty.toNat then raise .cfgDuty s
    else startCall s := by
  have hf : (s.ops.freq != 0#32) = false ↔ s.ops.freq = 0#32 := bne_eq_false_iff_eq
  have ht : ¬ (true = false) := by decide
  rw [checkAndStart_eq]
  simp only [hf, if_neg ht]

variable {d : Descriptor cfg} {s : MachineState cfg}

theorem acceptDescriptor_of_legal (hop : d.op = opTransmit) (hres : d.reserved = 0#15) :
    acceptDescriptor cfg d s = checkAndStart cfg (latch d (clearTrace s)) :=
  if_pos ((legalDescriptor_iff d).mpr ⟨hop, hres⟩)

theorem acceptDescriptor_of_illegal (h : d.op ≠ opTransmit ∨ d.reserved ≠ 0#15) :
    acceptDescriptor cfg d s = raise .cmdIllegal (clearTrace s) := by
  refine if_neg fun hl => ?_
  obtain ⟨hop, hres⟩ := (legalDescriptor_iff d).mp hl
  exact h.elim (absurd hop) (absurd hres)

/-- An enabled `TRANSMIT` answers the next state, whatever the descriptor (R101). -/
theorem transmit_of_enabled (hp : s.phase = .idle) (hw : s.hostWait = false) :
    transmit cfg d s = .next (acceptDescriptor cfg d s) :=
  if_pos ⟨hp, hw⟩

/-- The same at the default parameters, on the fixed name of the state. -/
theorem exec_transmit_of_enabled {d : Descriptor Config.default} {s : State} (hp : s.phase = .idle)
    (hw : s.hostWait = false) :
    exec (.transmit d) s = .next ⟨acceptDescriptor Config.default d s.toMachineState⟩ :=
  (ofDefault_eq_next_iff _ _).mpr (transmit_of_enabled hp hw)

/-- Settles O12: a legal descriptor is latched, and the checks are made on the latched values. -/
theorem transmitChecksInOrder : Obligations.TransmitChecksInOrder := by
  refine ⟨fun cfg d s hp hw hop hres => ?_, fun d s hp hw hop hres => ?_⟩
  · rw [transmit_of_enabled hp hw, acceptDescriptor_of_legal hop hres, checkAndStart_eq]
    rfl
  · rw [exec_transmit_of_enabled hp hw, acceptDescriptor_of_legal hop hres, checkAndStart_default_eq,
      apply_ite State.mk, apply_ite State.mk]
    rfl

/-- Settles O10: an acceptable descriptor passes the check on the latched values, so the call starts. -/
theorem transmitStartsValidCommand : Obligations.TransmitStartsValidCommand := by
  refine ⟨fun cfg d s hp hw ⟨hop, hres, hc⟩ => ?_, fun d s hp hw hop hres hf hd => ?_⟩
  · rw [transmit_of_enabled hp hw, acceptDescriptor_of_legal hop hres, checkAndStart_of_passes hc]
    rfl
  · rw [exec_transmit_of_enabled hp hw, acceptDescriptor_of_legal hop hres, checkAndStart_default_eq,
      latch_ops, if_neg hf, if_neg (Nat.not_lt.mpr hd)]
    rfl

/-- Settles O11: an illegal descriptor aborts before anything is latched. -/
theorem transmitRefusesIllegalDescriptor : Obligations.TransmitRefusesIllegalDescriptor := by
  intro d s hp hw h
  rw [exec_transmit_of_enabled hp hw, acceptDescriptor_of_illegal h]
  rfl

end Sys2Proof.Machine
end

section
/-! PROOF. The timing mux (41_sequencer_phases.md R113) and the issue step (R114): the request selected in each phase, where there
is none, the step that hands it over, and that no other step adds to `TRACE`. -/

namespace Sys2Proof.Machine

variable {cfg : Config} {s : MachineState cfg}

theorem timingMux_of_headerMark (hp : s.phase = .headerMark) : timingMux s = some (headerMarkReq s.ops) := by
  simp only [timingMux, hp]

theorem timingMux_of_headerSpace (hp : s.phase = .headerSpace) : timingMux s = some (headerSpaceReq s.ops) := by
  simp only [timingMux, hp]

theorem timingMux_of_bitMark (hp : s.phase = .bitMark) : timingMux s = some (bitMarkReq s.ops) := by
  simp only [timingMux, hp]

theorem timingMux_of_bitSpace (hp : s.phase = .bitSpace) : timingMux s = currentBitSpaceReq s := by
  simp only [timingMux, hp]

theorem timingMux_of_gap (hp : s.phase = .gap) : timingMux s = some (gapReq s.ops) := by
  simp only [timingMux, hp]

/-- Where the current bit has a value, the space of the bit is the one of that value (R113). -/
theorem currentBitSpaceReq_of_bit {b : Bool} (hb : payloadBit s.ops.order s.payload s.bitidx = some b) :
    currentBitSpaceReq s = some (bitSpaceReq s.ops b) := by
  simp only [currentBitSpaceReq, hb]

/-- Settles O23: the mux's equation of each phase, and in `BIT_SPACE` the current bit. -/
theorem timingMuxTable : Obligations.TimingMuxTable := by
  refine fun cfg s => ⟨timingMux_of_headerMark, timingMux_of_headerSpace, timingMux_of_bitMark, fun hp hb => ?_,
    fun hp hb => ?_, timingMux_of_gap⟩
  · exact (timingMux_of_bitSpace hp).trans (currentBitSpaceReq_of_bit hb)
  · exact (timingMux_of_bitSpace hp).trans (currentBitSpaceReq_of_bit hb)

/-- A bit has a value exactly where its byte has one (R112, 20_memory.md R55). -/
theorem payloadBit_eq_none_iff {nw : Nat} (order : BitVec 1) (m : Memory) (i : BitVec (nw + 3)) :
    payloadBit order m i = none ↔ Memory.read m (i.toNat / 8) = none := by
  rw [← byteIndex_toNat, payloadBit]
  cases Memory.read m (byteIndex i).toNat <;> simp

theorem currentBitSpaceReq_eq_none_iff (s : MachineState cfg) :
    currentBitSpaceReq s = none ↔ Memory.read s.payload (s.bitidx.toNat / 8) = none := by
  rw [← payloadBit_eq_none_iff s.ops.order, currentBitSpaceReq]
  cases payloadBit s.ops.order s.payload s.bitidx <;> simp

/-- In a phase the mux has no request only for a bit without a value (R113, 20_memory.md R55). -/
theorem timingMux_eq_none_iff (hs : s.phase ≠ .idle) :
    timingMux s = none ↔ s.phase = .bitSpace ∧ Memory.read s.payload (s.bitidx.toNat / 8) = none := by
  cases hp : s.phase with
  | idle => exact absurd hp hs
  | headerMark => simp [timingMux_of_headerMark hp]
  | headerSpace => simp [timingMux_of_headerSpace hp]
  | bitMark => simp [timingMux_of_bitMark hp]
  | bitSpace => simp [timingMux_of_bitSpace hp, currentBitSpaceReq_eq_none_iff]
  | gap => simp [timingMux_of_gap hp]

variable {q : Request cfg}

/-- With a phase and nothing in flight it is the sequencer's turn (R114). -/
theorem turn_of_running (hs : s.phase ≠ .idle) (hb : s.pend = false) : turn s = .sequencer s.phase := by
  simp [turn, hs, hb]

/-- A selected phase operation with a request and nothing in flight issues that request (R114). -/
theorem phaseOperation_of_request {p : Phase} {nxt : MachineState cfg → MachineState cfg} (hp : s.phase = p)
    (hb : s.pend = false) : phaseOperation p (some q) nxt s = .next (issue q s) := by
  simp [phaseOperation, hp, hb]

/-- In each phase the request of the selected operation is the mux's (R113, R114). -/
theorem phaseOp_eq_phaseOperation (hs : s.phase ≠ .idle) :
    ∃ nxt, phaseOp s.phase s = phaseOperation s.phase (timingMux s) nxt s := by
  cases hp : s.phase with
  | idle => exact absurd hp hs
  | headerMark => exact ⟨headerMarkNext, by rw [timingMux_of_headerMark hp]; rfl⟩
  | headerSpace => exact ⟨headerSpaceNext, by rw [timingMux_of_headerSpace hp]; rfl⟩
  | bitMark => exact ⟨bitMarkNext, by rw [timingMux_of_bitMark hp]; rfl⟩
  | bitSpace => exact ⟨bitSpaceNext, by rw [timingMux_of_bitSpace hp]; rfl⟩
  | gap => exact ⟨gapNext, by rw [timingMux_of_gap hp]; rfl⟩

/-- The issue step, on every platform (R114). -/
theorem stepOn_of_timingMux (hs : s.phase ≠ .idle) (hb : s.pend = false) (hq : timingMux s = some q) :
    stepOn cfg s = .next (issue q s) := by
  obtain ⟨nxt, e⟩ := phaseOp_eq_phaseOperation hs
  rw [stepOn, turn_of_running hs hb]
  simp only [e, hq]
  exact phaseOperation_of_request rfl hb

@[simp] theorem headerSpaceNext_trace (s : MachineState cfg) : (headerSpaceNext s).trace = s.trace := by
  obtain ⟨-, e⟩ | ⟨-, e⟩ := headerSpaceNext_cases s <;> rw [e]

@[simp] theorem bitSpaceNext_trace (s : MachineState cfg) : (bitSpaceNext s).trace = s.trace := by
  obtain ⟨-, e⟩ | ⟨-, e⟩ := bitSpaceNext_cases s <;> rw [e]

@[simp] theorem gapNext_trace (s : MachineState cfg) : (gapNext s).trace = s.trace := by
  obtain ⟨-, e⟩ | ⟨-, e⟩ := gapNext_cases s
  · rw [e]
  · rw [e, respond_trace]

/-- A completion step leaves `TRACE` where moving on to the next position does (R115, R157). -/
theorem complete_trace {nxt : MachineState cfg → MachineState cfg} (hn : ∀ u, (nxt u).trace = u.trace)
    (s : MachineState cfg) : (complete nxt s).trace = s.trace := by
  obtain ⟨-, e⟩ | ⟨rest, -, e⟩ | ⟨rest, -, e⟩ := complete_cases nxt s <;> rw [e]
  · exact hn _
  · rfl

/-- No completion step writes `TRACE`, in whichever phase (R115). -/
theorem completeCurrent_trace {t : MachineState cfg} (h : completeCurrent s = .next t) : t.trace = s.trace := by
  obtain ⟨-, rfl⟩ | ⟨-, rfl⟩ | ⟨-, rfl⟩ | ⟨-, rfl⟩ | ⟨-, rfl⟩ := completeCurrent_cases h
  · exact complete_trace headerMarkNext_trace s
  · exact complete_trace headerSpaceNext_trace s
  · exact complete_trace bitMarkNext_trace s
  · exact complete_trace bitSpaceNext_trace s
  · exact complete_trace gapNext_trace s

/-- A `TRANSMIT` step leaves `TRACE` empty, whether it starts a call or aborts (00_scope.md R10). -/
@[simp] theorem acceptDescriptor_trace (d : Descriptor cfg) (s : MachineState cfg) :
    (acceptDescriptor cfg d s).trace = [] := by
  obtain ⟨-, e⟩ | ⟨c, -, -, e⟩ | ⟨-, -, e⟩ := acceptDescriptor_cases d s <;> rw [e] <;> rfl

/-- A step that adds a request to `TRACE` is an issue step: every other step leaves `TRACE` or empties it. -/
theorem running_of_stepOn_appends {t : MachineState cfg} (h : stepOn cfg s = .next t) (ht : t.trace = s.trace ++ [q]) :
    s.phase ≠ .idle ∧ s.pend = false := by
  obtain ⟨-, rfl⟩ | ⟨l, rest, -, -, -, -, rfl⟩ | ⟨q', hb, hs, -, -⟩ | ⟨q', -, -, hc⟩ := stepOn_cases h
  · simp at ht
  · simp at ht
  · exact ⟨hs, hb⟩
  · simp [completeCurrent_trace hc] at ht

/-- Settles O22: the issue step, where the mux has no request, and that a step which adds to `TRACE` is an issue step. -/
theorem issueStepHandsOverRequest : Obligations.IssueStepHandsOverRequest := by
  refine ⟨fun s q hs hb hq => ?_, fun s hs _ => timingMux_eq_none_iff hs, fun s t q h ht => ?_⟩
  · exact (step_eq_next_iff _ _).mpr (stepOn_of_timingMux hs hb hq)
  · exact running_of_stepOn_appends ((step_eq_next_iff s t).mp h) ht

end Sys2Proof.Machine
end

section
/-! PROOF. The carrier of the marks (42_carrier_primitives.md R141, R147): a step into a running call starts it with a checked
configuration and an empty `TRACE`, or keeps the operands and adds to `TRACE` the mux's request at most. -/

namespace Sys2Proof.Machine

variable {cfg : Config} {s t : MachineState cfg}

/-- A mark the mux selects carries `FREQ` and `DUTY` unchanged, in whichever phase (R113, R147). -/
theorem timingMux_mark_carrier {d : BitVec cfg.DW} {f : BitVec cfg.FW} {c : BitVec Config.DUTYW}
    (h : timingMux s = some (.mark d f c)) : f = s.ops.freq ∧ c = s.ops.duty := by
  cases hp : s.phase with
  | idle => simp [timingMux, hp] at h
  | headerMark =>
    obtain ⟨-, rfl, rfl⟩ : s.ops.hm = d ∧ s.ops.freq = f ∧ s.ops.duty = c := by
      simpa [timingMux_of_headerMark hp, headerMarkReq] using h
    exact ⟨rfl, rfl⟩
  | headerSpace => simp [timingMux_of_headerSpace hp, headerSpaceReq] at h
  | bitMark =>
    obtain ⟨-, rfl, rfl⟩ : s.ops.bm = d ∧ s.ops.freq = f ∧ s.ops.duty = c := by
      simpa [timingMux_of_bitMark hp, bitMarkReq] using h
    exact ⟨rfl, rfl⟩
  | bitSpace =>
    rw [timingMux_of_bitSpace hp, currentBitSpaceReq] at h
    cases hb : payloadBit s.ops.order s.payload s.bitidx <;> simp [hb, bitSpaceReq] at h
  | gap => simp [timingMux_of_gap hp, gapReq] at h

/-- Only a call that runs has a request to complete (R143). -/
theorem running_of_completeCurrent (h : completeCurrent s = .next t) : s.phase ≠ .idle := by
  obtain ⟨hp, -⟩ | ⟨hp, -⟩ | ⟨hp, -⟩ | ⟨hp, -⟩ | ⟨hp, -⟩ := completeCurrent_cases h <;> simp [hp]

/-- A call that a `TRANSMIT` step starts has passed the configuration check (R103, R104). -/
theorem acceptDescriptor_config {d : Descriptor cfg} (ht : (acceptDescriptor cfg d s).phase ≠ .idle) :
    configFault cfg (acceptDescriptor cfg d s).ops = none := by
  obtain ⟨-, e⟩ | ⟨c, -, -, e⟩ | ⟨-, hc, e⟩ := acceptDescriptor_cases d s <;> rw [e] at ht ⊢
  · exact absurd rfl ht
  · exact absurd rfl ht
  · exact hc

/-- What a step into a running call does to the operands and to `TRACE`: it starts the call, or the call goes on. -/
theorem stepOn_into_running (h : stepOn cfg s = .next t) (ht : t.phase ≠ .idle) :
    (configFault cfg t.ops = none ∧ t.trace = []) ∨
      (s.phase ≠ .idle ∧ t.ops = s.ops ∧
        (t.trace = s.trace ∨ ∃ q, timingMux s = some q ∧ t.trace = s.trace ++ [q])) := by
  obtain ⟨-, rfl⟩ | ⟨l, rest, -, -, -, -, rfl⟩ | ⟨q, -, hs, hq, rfl⟩ | ⟨q, -, -, hc⟩ := stepOn_cases h
  · exact .inr ⟨ht, rfl, .inl rfl⟩
  · exact .inl ⟨acceptDescriptor_config ht, acceptDescriptor_trace _ _⟩
  · exact .inr ⟨hs, rfl, .inr ⟨q, hq, rfl⟩⟩
  · exact .inr ⟨running_of_completeCurrent hc, completeCurrent_ops hc, .inl (completeCurrent_trace hc)⟩

/-- Every step keeps the invariant's clause on the configuration (R103). -/
theorem stepOn_keeps_config (hi : Inv s) (h : stepOn cfg s = .next t) (ht : t.phase ≠ .idle) :
    configFault cfg t.ops = none := by
  obtain ⟨hc, -⟩ | ⟨hs, hops, -⟩ := stepOn_into_running h ht
  · exact hc
  · rw [hops]
    exact hi.config hs

/-- Every step keeps the invariant's clause on the marks (R147). -/
theorem stepOn_keeps_carrier (hi : Inv s) (h : stepOn cfg s = .next t) (ht : t.phase ≠ .idle)
    (d : BitVec cfg.DW) (f : BitVec cfg.FW) (c : BitVec Config.DUTYW) (hm : Request.mark d f c ∈ t.trace) :
    f = t.ops.freq ∧ c = t.ops.duty := by
  obtain ⟨-, e⟩ | ⟨hs, hops, e | ⟨q, hq, e⟩⟩ := stepOn_into_running h ht <;> rw [e] at hm
  · simp at hm
  · rw [hops]
    exact hi.carrier hs d f c hm
  · rw [hops]
    obtain hold | hnew := List.mem_append.mp hm
    · exact hi.carrier hs d f c hold
    · exact timingMux_mark_carrier (hq.trans (congrArg some (List.mem_singleton.mp hnew).symm))

/-- Settles O44: the marks carry the latched values, and these have passed the default configuration check. -/
theorem marksCarryValidCarrier : Obligations.MarksCarryValidCarrier := by
  intro s t d f c hi h ht hm
  have hstep := (step_eq_next_iff s t).mp h
  obtain ⟨rfl, rfl⟩ := stepOn_keeps_carrier hi hstep ht d f c hm
  obtain ⟨hfreq, hduty⟩ := (configFault_default_eq_none_iff _).mp (stepOn_keeps_config hi hstep ht)
  exact ⟨rfl, rfl, hfreq, Nat.not_lt.mp ((dutyMax_lt_iff _).not.mp hduty)⟩

end Sys2Proof.Machine
end

section
/-! PROOF. Positions (10_state.md R28): where a completed phase moves on to, the next position again satisfies the position
invariant and one request more has been issued; so every step keeps the position invariant. -/

namespace Sys2Proof.Machine

variable {cfg : Config} {s t : MachineState cfg}

theorem PositionInv.of_idle (hp : s.phase = .idle) (hb : s.pend = false) : PositionInv s := by
  constructor <;> simp [hp, hb]

theorem PositionInv.of_header (hp : s.phase = .headerMark ∨ s.phase = .headerSpace)
    (hk : s.iter.toNat ≤ s.ops.repeats.toNat) (hi : s.bitidx.toNat = 0) : PositionInv s := by
  obtain hp | hp := hp <;> constructor <;> simp [hp, hk, hi]

theorem PositionInv.of_bit (hp : s.phase = .bitMark ∨ s.phase = .bitSpace)
    (hk : s.iter.toNat ≤ s.ops.repeats.toNat) (hi : s.bitidx.toNat < 8 * s.ops.nbytes.toNat) : PositionInv s := by
  obtain hp | hp := hp <;> constructor <;> simp [hp, hk, hi]

/-- In `GAP` both clauses say that the bit index is that of the last bit, which truncated subtraction makes 0 without bits. -/
theorem PositionInv.of_gap (hp : s.phase = .gap) (hk : s.iter.toNat ≤ s.ops.repeats.toNat)
    (hi : s.bitidx.toNat = 8 * s.ops.nbytes.toNat - 1) : PositionInv s := by
  constructor <;> simp +contextual [hp, hk, hi]

/-- The position invariant speaks of the operands, the position and, in `IDLE`, of `PEND` only. -/
theorem PositionInv.of_same_position (h : PositionInv s) (hops : t.ops = s.ops) (hp : t.phase = s.phase)
    (hk : t.iter = s.iter) (hi : t.bitidx = s.bitidx) (hb : t.phase = .idle → t.pend = false) : PositionInv t := by
  obtain ⟨-, iter, bit, header, gapBits, gapEmpty⟩ := h
  refine ⟨hb, ?_, ?_, ?_, ?_, ?_⟩ <;> simpa only [hops, hp, hk, hi]

/-- A move on from phase `p`: it gives a position again, and, if the call goes on, one that comes one request later. -/
def Advances (p : Phase) (nxt : MachineState cfg → MachineState cfg) : Prop :=
  ∀ s, PositionInv s → s.phase = p → s.pend = false →
    PositionInv (nxt s) ∧ ((nxt s).phase ≠ .idle → issuedCount (nxt s) = issuedCount s + 1)

theorem headerMarkNext_advances : Advances (cfg := cfg) .headerMark headerMarkNext := by
  intro s h hp hb
  refine ⟨.of_header (.inr rfl) (h.iter (.inl hp)) (h.header (.inl hp)), fun _ => ?_⟩
  simp [issuedCount, placeInIteration, hp, hb]

theorem headerSpaceNext_advances : Advances (cfg := cfg) .headerSpace headerSpaceNext := by
  intro s h hp hb
  have hk := h.iter (.inr (.inl hp))
  have hi := h.header (.inr hp)
  obtain ⟨hn, e⟩ | ⟨hn, e⟩ := headerSpaceNext_cases s <;> rw [e]
  · refine ⟨.of_gap rfl hk (by simp [hi, hn]), fun _ => ?_⟩
    simp [issuedCount, placeInIteration, hp, hb, hn]
  · have hpos : s.ops.nbytes.toNat ≠ 0 := fun h0 => hn (BitVec.eq_of_toNat_eq h0)
    refine ⟨.of_bit (.inl rfl) hk (by simp only [hi]; omega), fun _ => ?_⟩
    simp [issuedCount, placeInIteration, hp, hb, hi]

theorem bitMarkNext_advances : Advances (cfg := cfg) .bitMark bitMarkNext := by
  intro s h hp hb
  refine ⟨.of_bit (.inr rfl) (h.iter (.inr (.inr (.inr (.inl hp))))) (h.bit (.inl hp)), fun _ => ?_⟩
  simp [issuedCount, placeInIteration, hp, hb]
  omega

theorem toNat_succ_of_lt {w : Nat} {x : BitVec w} (h : x.toNat + 1 < 2 ^ w) : (x + 1).toNat = x.toNat + 1 := by
  simp [BitVec.toNat_add, Nat.mod_eq_of_lt h]

/-- The bit index below `TOTAL` does not wrap when it is incremented (R27, R111). -/
theorem bitidx_succ_toNat (hi : s.bitidx.toNat < 8 * s.ops.nbytes.toNat) :
    (s.bitidx + 1).toNat = s.bitidx.toNat + 1 := by
  have ht := (totalBits s.ops).isLt
  rw [totalBits_toNat] at ht
  exact toNat_succ_of_lt (by omega)

theorem bitSpaceNext_advances : Advances (cfg := cfg) .bitSpace bitSpaceNext := by
  intro s h hp hb
  have hk := h.iter (.inr (.inr (.inr (.inr hp))))
  have hi := h.bit (.inr hp)
  have hsucc := bitidx_succ_toNat hi
  obtain ⟨hn, e⟩ | ⟨hn, e⟩ := bitSpaceNext_cases s <;> rw [e] <;>
    rw [BitVec.lt_def, hsucc, totalBits_toNat] at hn
  · refine ⟨.of_bit (.inl rfl) hk (by rw [hsucc]; exact hn), fun _ => ?_⟩
    simp only [issuedCount, placeInIteration, hp, hb, hsucc]
    omega
  · refine ⟨.of_gap rfl hk (by simp only; omega), fun _ => ?_⟩
    simp only [issuedCount, placeInIteration, hp, hb]
    omega

/-- The iteration number below `REPEATS` does not wrap when it is incremented (R26). -/
theorem iter_succ_toNat (hk : s.iter < s.ops.repeats) : (s.iter + 1).toNat = s.iter.toNat + 1 := by
  have hr := s.ops.repeats.isLt
  rw [BitVec.lt_def] at hk
  exact toNat_succ_of_lt (by omega)

theorem gapNext_advances : Advances (cfg := cfg) .gap gapNext := by
  intro s h hp hb
  obtain ⟨hn, e⟩ | ⟨-, e⟩ := gapNext_cases s <;> rw [e]
  · have hsucc := iter_succ_toNat hn
    refine ⟨.of_header (.inl rfl) (by rw [hsucc]; exact hn) rfl, fun _ => ?_⟩
    simp only [issuedCount, placeInIteration, iterationLength, hp, hb, hsucc]
    ring
  · exact ⟨.of_idle rfl hb, fun hne => absurd rfl hne⟩

/-- A completion step gives a position again, and, if the call goes on, leaves the number of requests issued (R115). -/
theorem complete_advances {p : Phase} {nxt : MachineState cfg → MachineState cfg} (hn : Advances p nxt)
    (h : PositionInv s) (hp : s.phase = p) (hb : s.pend = true) :
    PositionInv (complete nxt s) ∧ ((complete nxt s).phase ≠ .idle → issuedCount (complete nxt s) = issuedCount s) := by
  obtain ⟨-, e⟩ | ⟨rest, -, e⟩ | ⟨rest, -, e⟩ := complete_cases nxt s <;> rw [e]
  · exact ⟨h, fun _ => rfl⟩
  · obtain ⟨hpos, hcount⟩ := hn { s with drvAnswers := rest, drvChan := none, pend := false }
      (h.of_same_position rfl rfl rfl rfl fun _ => rfl) hp rfl
    refine ⟨hpos, fun hne => (hcount hne).trans ?_⟩
    simp [issuedCount, placeInIteration, hb]
  · exact ⟨.of_idle rfl rfl, fun hne => absurd rfl hne⟩

theorem completeCurrent_advances (h : PositionInv s) (hb : s.pend = true) (hc : completeCurrent s = .next t) :
    PositionInv t ∧ (t.phase ≠ .idle → issuedCount t = issuedCount s) := by
  obtain ⟨hp, rfl⟩ | ⟨hp, rfl⟩ | ⟨hp, rfl⟩ | ⟨hp, rfl⟩ | ⟨hp, rfl⟩ := completeCurrent_cases hc
  · exact complete_advances headerMarkNext_advances h hp hb
  · exact complete_advances headerSpaceNext_advances h hp hb
  · exact complete_advances bitMarkNext_advances h hp hb
  · exact complete_advances bitSpaceNext_advances h hp hb
  · exact complete_advances gapNext_advances h hp hb

/-- A `TRANSMIT` step aborts, or starts the call at the head of iteration 0 (R104). -/
theorem acceptDescriptor_positionInv (d : Descriptor cfg) (s : MachineState cfg) :
    PositionInv (acceptDescriptor cfg d s) := by
  obtain ⟨-, e⟩ | ⟨c, -, -, e⟩ | ⟨-, -, e⟩ := acceptDescriptor_cases d s <;> rw [e]
  · exact .of_idle rfl rfl
  · exact .of_idle rfl rfl
  · exact .of_header (.inl rfl) (Nat.zero_le _) rfl

/-- Every step keeps the position invariant, on every platform (R28). -/
theorem stepOn_keeps_positionInv (h : PositionInv s) (hstep : stepOn cfg s = .next t) : PositionInv t := by
  obtain ⟨-, rfl⟩ | ⟨l, rest, -, -, -, -, rfl⟩ | ⟨q, -, hs, -, rfl⟩ | ⟨q, hb, -, hc⟩ := stepOn_cases hstep
  · exact h
  · exact acceptDescriptor_positionInv _ _
  · exact h.of_same_position rfl rfl rfl rfl fun hidle => absurd hidle hs
  · obtain ⟨ht, -⟩ := completeCurrent_advances h hb hc
    exact ht

end Sys2Proof.Machine
end


section
/-! PROOF. The entries of the pulse train (41_sequencer_phases.md R126): at the place of a position in its iteration stands the
request that the timing mux selects there. -/

namespace Sys2Proof.Machine

variable {cfg : Config} {s : MachineState cfg} {r : OperandRegs cfg} {m : Memory}

@[simp] theorem bitPair_length (r : OperandRegs cfg) (b : Bool) : (bitPair r b).length = 2 := rfl

theorem commandBits_length (hm : r.nbytes.toNat ≤ m.length) : (commandBits r m).length = 8 * r.nbytes.toNat := by
  simp [commandBits, consumedBytes, List.length_flatMap, Function.comp_def, hm, Nat.mul_comm]

theorem bitPairs_length (hm : r.nbytes.toNat ≤ m.length) :
    ((commandBits r m).flatMap (bitPair r)).length = 2 * (8 * r.nbytes.toNat) := by
  simp [List.length_flatMap, commandBits_length hm, Nat.mul_comm]

theorem iteration_length (hm : r.nbytes.toNat ≤ m.length) : (iteration r m).length = iterationLength r := by
  simp only [iteration, iterationLength, List.length_append, bitPairs_length hm, List.length_cons, List.length_nil]
  omega

/-- The train repeats one iteration: entry `p` of iteration `k` (R126, R128). -/
theorem train_getElem? (hm : r.nbytes.toNat ≤ m.length) {k p : Nat} (hk : k ≤ r.repeats.toNat)
    (hp : p < iterationLength r) : (train r m)[k * iterationLength r + p]? = (iteration r m)[p]? := by
  have e : train r m = (List.replicate (r.repeats.toNat + 1) ()).flatMap fun _ => iteration r m := by
    rw [train, List.flatMap, List.map_replicate]
  have hpos : 0 < iterationLength r := by omega
  rw [e, flatMap_getElem?_of_length_eq hpos (fun _ => iteration_length hm), Nat.mul_comm,
    Nat.mul_add_div hpos, Nat.mul_add_mod, Nat.div_eq_of_lt hp, Nat.mod_eq_of_lt hp]
  simp [Nat.lt_succ_of_le hk]

/-- The two requests of bit `i` follow the header and the requests of the bits before it (R126). -/
theorem iteration_getElem?_bit {i : Nat} {b : Bool} (hb : (commandBits r m)[i]? = some b) {j : Nat} (hj : j < 2) :
    (iteration r m)[2 + (2 * i + j)]? = (bitPair r b)[j]? := by
  have hpair : ((commandBits r m).flatMap (bitPair r))[2 * i + j]? = (bitPair r b)[j]? := by
    rw [flatMap_getElem?_of_length_eq (by decide) (bitPair_length r), Nat.mul_add_div (by decide), Nat.mul_add_mod,
      Nat.div_eq_of_lt hj, Nat.mod_eq_of_lt hj, Nat.add_zero, hb]
    rfl
  obtain ⟨hi, -⟩ := List.getElem?_eq_some_iff.mp hb
  have hlt : 2 * i + j < ((commandBits r m).flatMap (bitPair r)).length := by
    simp [List.length_flatMap]
    omega
  rw [iteration, List.append_assoc, List.getElem?_append_right (by simp), List.getElem?_append_left (by simpa using hlt)]
  simpa using hpair

/-- The gap follows the requests of all bits (R126). -/
theorem iteration_getElem?_gap (hm : r.nbytes.toNat ≤ m.length) :
    (iteration r m)[2 + 2 * (8 * r.nbytes.toNat)]? = some (gapReq r) := by
  have e : ([headerMarkReq r, headerSpaceReq r] ++ (commandBits r m).flatMap (bitPair r)).length =
      2 + 2 * (8 * r.nbytes.toNat) := by
    rw [List.length_append, bitPairs_length hm]
    rfl
  rw [← e]
  exact List.getElem?_concat_length

/-- In a buffer that holds the consumed bytes every bit below `TOTAL` has a value (20_memory.md R55). -/
theorem exists_read_of_bit (hwf : Memory.wf cfg m = true) (hm : r.nbytes.toNat ≤ m.length) {i : Nat}
    (hi : i < 8 * r.nbytes.toNat) : ∃ b, Memory.read m (i / 8) = some b := by
  refine Option.ne_none_iff_exists'.mp fun hnone => ?_
  have := (read_eq_none_iff hwf _).mp hnone
  omega

/-- While a call with a long enough payload runs, the request of the current position is the entry of the iteration at the
place of that position (R113, R126). -/
theorem iteration_getElem?_placeInIteration (h : PositionInv s) (hwf : Memory.wf cfg s.payload = true)
    (hlong : payloadLongEnough s) (hs : s.phase ≠ .idle) :
    (iteration s.ops s.payload)[placeInIteration s]? = timingMux s := by
  cases hp : s.phase with
  | idle => exact absurd hp hs
  | headerMark => simp only [placeInIteration, hp, timingMux_of_headerMark hp]; rfl
  | headerSpace => simp only [placeInIteration, hp, timingMux_of_headerSpace hp]; rfl
  | bitMark =>
    have hi := h.bit (.inl hp)
    obtain ⟨b, hb⟩ := exists_read_of_bit hwf hlong hi
    simp only [placeInIteration, hp, timingMux_of_bitMark hp]
    exact iteration_getElem?_bit (commandBits_of_read hwf hi hb) (j := 0) (by decide)
  | bitSpace =>
    have hi := h.bit (.inr hp)
    obtain ⟨b, hb⟩ := exists_read_of_bit hwf hlong hi
    simp only [placeInIteration, hp, timingMux_of_bitSpace hp, currentBitSpaceReq_of_bit (payloadBit_of_read hb)]
    rw [show 3 + 2 * s.bitidx.toNat = 2 + (2 * s.bitidx.toNat + 1) by omega]
    exact iteration_getElem?_bit (commandBits_of_read hwf hi hb) (j := 1) (by decide)
  | gap =>
    simp only [placeInIteration, hp, timingMux_of_gap hp]
    exact iteration_getElem?_gap hlong

/-- A position lies within its iteration. -/
theorem placeInIteration_lt (h : PositionInv s) : placeInIteration s < iterationLength s.ops := by
  cases hp : s.phase with
  | bitMark | bitSpace =>
    have hi := h.bit (by simp [hp])
    simp only [placeInIteration, iterationLength, hp]
    omega
  | idle | headerMark | headerSpace | gap =>
    simp only [placeInIteration, iterationLength, hp]
    omega

/-- Before an issue step the train continues with the request of the current position. -/
theorem train_getElem?_issuedCount (h : PositionInv s) (hwf : Memory.wf cfg s.payload = true)
    (hlong : payloadLongEnough s) (hs : s.phase ≠ .idle) (hb : s.pend = false) :
    (train s.ops s.payload)[issuedCount s]? = timingMux s := by
  have hk : s.iter.toNat ≤ s.ops.repeats.toNat := h.iter (by cases hp : s.phase <;> simp_all)
  have hcount : issuedCount s = s.iter.toNat * iterationLength s.ops + placeInIteration s := by
    simp [issuedCount, hb]
  rw [hcount, train_getElem? hlong hk (placeInIteration_lt h)]
  exact iteration_getElem?_placeInIteration h hwf hlong hs

end Sys2Proof.Machine
end

section
/-! PROOF. The trace as a part of the train (41_sequencer_phases.md section 8): every step keeps it so, hence it holds of every
reachable state; and the step that takes a `FAULT` (60_exceptions.md R157). -/

namespace Sys2Proof.Machine

variable {cfg : Config} {s t : MachineState cfg}

theorem acceptDescriptor_payload (d : Descriptor cfg) (s : MachineState cfg) :
    (acceptDescriptor cfg d s).payload = s.payload := by
  have e : acceptDescriptor cfg d s = setPayload s.payload (acceptDescriptor cfg d s) :=
    acceptDescriptor_payloadNeutral d s.payload s
  rw [e]
  rfl

/-- No completion step writes the payload (20_memory.md R51). -/
theorem completeCurrent_payload (h : completeCurrent s = .next t) : t.payload = s.payload := by
  have e : completeCurrent s = .next (setPayload s.payload t) := completeCurrent_sameWithPayload t h
  rw [Host.Outcome.next.inj (h.symm.trans e)]
  rfl

/-- Every step keeps the payload memory in canonical form (R50, R59). -/
theorem stepOn_keeps_payload_wf (hwf : Memory.wf cfg s.payload = true) (h : stepOn cfg s = .next t) :
    Memory.wf cfg t.payload = true := by
  obtain ⟨-, rfl⟩ | ⟨l, rest, -, -, -, -, rfl⟩ | ⟨q, -, -, -, rfl⟩ | ⟨q, -, -, hc⟩ := stepOn_cases h
  · exact hwf
  · rw [acceptDescriptor_payload]
    exact hostSends_keeps_wf l rest s
  · exact hwf
  · rw [completeCurrent_payload hc]
    exact hwf

/-- A call that a `TRANSMIT` step starts has issued nothing (R104). -/
theorem acceptDescriptor_traceInv (d : Descriptor cfg) (s : MachineState cfg) : TraceInv (acceptDescriptor cfg d s) := by
  intro hne _
  obtain ⟨-, e⟩ | ⟨c, -, -, e⟩ | ⟨-, -, e⟩ := acceptDescriptor_cases d s <;> rw [e] at hne ⊢
  · exact absurd rfl hne
  · exact absurd rfl hne
  · simp [issuedCount, placeInIteration]

/-- The issue step adds the train's next request (R114, R126). -/
theorem issue_traceInv {q : Request cfg} (h : PositionInv s) (hwf : Memory.wf cfg s.payload = true) (ht : TraceInv s)
    (hb : s.pend = false) (hq : timingMux s = some q) : TraceInv (issue q s) := by
  intro hs hlong
  have hcount : issuedCount (issue q s) = issuedCount s + 1 := by
    simp [issuedCount, placeInIteration, hb]
  have hnext : (train s.ops s.payload)[issuedCount s]? = some q :=
    (train_getElem?_issuedCount h hwf hlong hs hb).trans hq
  rw [issue_trace, issue_ops, issue_payload, hcount, List.take_add_one, hnext, ht hs hlong]
  rfl

/-- Every step keeps `TRACE` the part of the train up to the position, on every platform (R126). -/
theorem stepOn_keeps_traceInv (h : PositionInv s) (hwf : Memory.wf cfg s.payload = true) (ht : TraceInv s)
    (hstep : stepOn cfg s = .next t) : TraceInv t := by
  obtain ⟨-, rfl⟩ | ⟨l, rest, -, -, -, -, rfl⟩ | ⟨q, hb, -, hq, rfl⟩ | ⟨q, hb, -, hc⟩ := stepOn_cases hstep
  · exact ht
  · exact acceptDescriptor_traceInv _ _
  · exact issue_traceInv h hwf ht hb hq
  · obtain ⟨-, hcount⟩ := completeCurrent_advances h hb hc
    intro hne hlong
    rw [completeCurrent_trace hc, completeCurrent_ops hc, completeCurrent_payload hc, hcount hne]
    rw [payloadLongEnough, MachineState.plen, completeCurrent_ops hc, completeCurrent_payload hc] at hlong
    exact ht (running_of_completeCurrent hc) hlong

/-- What every step keeps holds at the end of a run if it holds at its start. -/
theorem stepsTo_induction {P : MachineState Config.default → Prop}
    (hstep : ∀ s t, P s → stepOn Config.default s = .next t → P t) {n : Nat} {s t : State} (hs : P s.toMachineState)
    (h : stepsTo n s t) : P t.toMachineState := by
  induction n generalizing s with
  | zero => exact h ▸ hs
  | succ n ih =>
    obtain ⟨u, hsu, hut⟩ := h
    exact ih (hstep _ _ hs ((step_eq_next_iff s u).mp hsu)) hut

/-- What holds after reset, whatever the host and the driver have to send, and is kept by every step, holds of every
reachable state. -/
theorem reachable_induction {P : MachineState Config.default → Prop}
    (hreset : ∀ launches answers,
      P { MachineState.reset Config.default with hostQueue := launches, drvAnswers := answers })
    (hstep : ∀ s t, P s → stepOn Config.default s = .next t → P t) {s : State} (h : reachable s) :
    P s.toMachineState := by
  obtain ⟨launches, answers, n, hn⟩ := h
  exact stepsTo_induction hstep (hreset launches answers) hn

/-- In every reachable state `TRACE` is the part of the train up to the position. -/
theorem traceInv_of_reachable {s : State} (h : reachable s) : TraceInv s.toMachineState := by
  have hall : PositionInv s.toMachineState ∧ Memory.wf Config.default s.payload = true ∧ TraceInv s.toMachineState := by
    refine reachable_induction
      (P := fun u => PositionInv u ∧ Memory.wf Config.default u.payload = true ∧ TraceInv u)
      (fun _ _ => ⟨.of_idle rfl rfl, wf_ofBytes [], fun hne => absurd rfl hne⟩) (fun u v ⟨hpos, hwf, ht⟩ huv => ?_) h
    exact ⟨stepOn_keeps_positionInv hpos huv, stepOn_keeps_payload_wf hwf huv, stepOn_keeps_traceInv hpos hwf ht huv⟩
  obtain ⟨-, -, ht⟩ := hall
  exact ht

/-- With a long enough payload the trace of a running call is an initial part of the train. -/
theorem TraceInv.isPrefix_train (ht : TraceInv s) (hs : s.phase ≠ .idle) (hlong : payloadLongEnough s) :
    s.trace <+: train s.ops s.payload := by
  rw [ht hs hlong]
  exact List.take_prefix _ _

/-- With a request in flight it is the driver's turn, and its step is the completion step of the current phase (R143). -/
theorem stepOn_of_flight {q : Request cfg} (hb : s.pend = true) (hd : s.drvChan = some q) :
    stepOn cfg s = completeCurrent s := by
  have hturn : turn s = .driver q := by simp [turn, hb, hd]
  rw [stepOn, hturn]
  cases q <;> exact if_pos ⟨hb, hd⟩

/-- In whichever phase, the completion step on `FAULT` takes the answer and aborts with `DRV_FAULT` (R157). -/
theorem completeCurrent_of_fault {rest : List Answer} (hs : s.phase ≠ .idle) (ha : s.drvAnswers = .fault :: rest) :
    completeCurrent s = .next (raise .drvFault { s with drvAnswers := rest, drvChan := none, pend := false }) := by
  rw [completeCurrent]
  cases hp : s.phase with
  | idle => exact absurd hp hs
  | headerMark | headerSpace | bitMark | bitSpace | gap => exact congrArg _ (complete_of_fault ha)

/-- Settles O24: the invariant puts the mux's request on the channel and at the end of `TRACE`; the driver's step then aborts
and does not write `TRACE`, which is an initial part of the train wherever `TraceInv` holds. -/
theorem driverFaultAbortsCall : Obligations.DriverFaultAbortsCall := by
  intro s rest hi hb ha
  have hs : s.phase ≠ .idle := fun hp => by simp [hi.position.idle hp] at hb
  obtain ⟨q, hq, hd, hlast⟩ := hi.flight hb
  refine ⟨(step_eq_next_iff _ _).mpr ?_, ⟨q, hq, hlast⟩, fun ht => ht.isPrefix_train hs,
    fun hr => (traceInv_of_reachable hr).isPrefix_train hs⟩
  rw [stepOn_of_flight hb hd, completeCurrent_of_fault hs ha]
  rfl

end Sys2Proof.Machine
end

section
/-! PROOF. The completion step in whichever phase is one move, to the next position (41_sequencer_phases.md R115 to R120): what it
can do, what it leaves, and the step of each agent in the state in which it is enabled. -/

namespace Sys2Proof.Machine

variable {cfg : Config} {s t : MachineState cfg}

/-- The driver's answer is taken: nothing is in flight, and `rest` are the answers still to come (R115). -/
def takeAnswer (rest : List Answer) (s : MachineState cfg) : MachineState cfg :=
  { s with drvAnswers := rest, drvChan := none, pend := false }

@[simp] theorem takeAnswer_ops (rest : List Answer) (s : MachineState cfg) : (takeAnswer rest s).ops = s.ops := rfl
@[simp] theorem takeAnswer_phase (rest : List Answer) (s : MachineState cfg) : (takeAnswer rest s).phase = s.phase := rfl
@[simp] theorem takeAnswer_iter (rest : List Answer) (s : MachineState cfg) : (takeAnswer rest s).iter = s.iter := rfl
@[simp] theorem takeAnswer_bitidx (rest : List Answer) (s : MachineState cfg) :
    (takeAnswer rest s).bitidx = s.bitidx := rfl
@[simp] theorem takeAnswer_pend (rest : List Answer) (s : MachineState cfg) : (takeAnswer rest s).pend = false := rfl
@[simp] theorem takeAnswer_cause (rest : List Answer) (s : MachineState cfg) : (takeAnswer rest s).cause = s.cause := rfl
@[simp] theorem takeAnswer_payload (rest : List Answer) (s : MachineState cfg) :
    (takeAnswer rest s).payload = s.payload := rfl
@[simp] theorem takeAnswer_hostWait (rest : List Answer) (s : MachineState cfg) :
    (takeAnswer rest s).hostWait = s.hostWait := rfl
@[simp] theorem takeAnswer_hostQueue (rest : List Answer) (s : MachineState cfg) :
    (takeAnswer rest s).hostQueue = s.hostQueue := rfl
@[simp] theorem takeAnswer_drvChan (rest : List Answer) (s : MachineState cfg) :
    (takeAnswer rest s).drvChan = none := rfl
@[simp] theorem takeAnswer_drvAnswers (rest : List Answer) (s : MachineState cfg) :
    (takeAnswer rest s).drvAnswers = rest := rfl
@[simp] theorem takeAnswer_trace (rest : List Answer) (s : MachineState cfg) : (takeAnswer rest s).trace = s.trace := rfl
@[simp] theorem takeAnswer_responses (rest : List Answer) (s : MachineState cfg) :
    (takeAnswer rest s).responses = s.responses := rfl

/-- Where the current phase moves on to once its request has been answered `OK` (R116 to R120). -/
def nextPosition (s : MachineState cfg) : MachineState cfg :=
  match s.phase with
  | .idle => s
  | .headerMark => headerMarkNext s
  | .headerSpace => headerSpaceNext s
  | .bitMark => bitMarkNext s
  | .bitSpace => bitSpaceNext s
  | .gap => gapNext s

theorem nextPosition_of_idle (hp : s.phase = .idle) : nextPosition s = s := by
  simp only [nextPosition, hp]

theorem nextPosition_of_headerMark (hp : s.phase = .headerMark) : nextPosition s = headerMarkNext s := by
  simp only [nextPosition, hp]

theorem nextPosition_of_headerSpace (hp : s.phase = .headerSpace) : nextPosition s = headerSpaceNext s := by
  simp only [nextPosition, hp]

theorem nextPosition_of_bitMark (hp : s.phase = .bitMark) : nextPosition s = bitMarkNext s := by
  simp only [nextPosition, hp]

theorem nextPosition_of_bitSpace (hp : s.phase = .bitSpace) : nextPosition s = bitSpaceNext s := by
  simp only [nextPosition, hp]

theorem nextPosition_of_gap (hp : s.phase = .gap) : nextPosition s = gapNext s := by
  simp only [nextPosition, hp]

/-- Moving on gives the running call another position, or ends it after its last gap with response 0 (R121, R122). -/
theorem nextPosition_cases (hs : s.phase ≠ .idle) :
    (∃ p k i, p ≠ .idle ∧ nextPosition s = { s with phase := p, iter := k, bitidx := i }) ∨
      (s.phase = .gap ∧ ¬ s.iter < s.ops.repeats ∧ nextPosition s = respond .none { s with phase := .idle }) := by
  cases hp : s.phase with
  | idle => exact absurd hp hs
  | headerMark => exact .inl ⟨.headerSpace, s.iter, s.bitidx, by decide, nextPosition_of_headerMark hp⟩
  | headerSpace =>
    rw [nextPosition_of_headerSpace hp]
    obtain ⟨-, e⟩ | ⟨-, e⟩ := headerSpaceNext_cases s
    · exact .inl ⟨.gap, s.iter, s.bitidx, by decide, e⟩
    · exact .inl ⟨.bitMark, s.iter, s.bitidx, by decide, e⟩
  | bitMark => exact .inl ⟨.bitSpace, s.iter, s.bitidx, by decide, nextPosition_of_bitMark hp⟩
  | bitSpace =>
    rw [nextPosition_of_bitSpace hp]
    obtain ⟨-, e⟩ | ⟨-, e⟩ := bitSpaceNext_cases s
    · exact .inl ⟨.bitMark, s.iter, s.bitidx + 1, by decide, e⟩
    · exact .inl ⟨.gap, s.iter, s.bitidx, by decide, e⟩
  | gap =>
    rw [nextPosition_of_gap hp]
    obtain ⟨-, e⟩ | ⟨hk, e⟩ := gapNext_cases s
    · exact .inl ⟨.headerMark, s.iter + 1, 0, by decide, e⟩
    · exact .inr ⟨rfl, hk, e⟩

/-- The fields that moving on can write. -/
theorem nextPosition_frame (s : MachineState cfg) : ∃ p k i w r,
    nextPosition s = { s with phase := p, iter := k, bitidx := i, hostWait := w, responses := r } := by
  by_cases hs : s.phase = .idle
  · exact ⟨s.phase, s.iter, s.bitidx, s.hostWait, s.responses, nextPosition_of_idle hs⟩
  · obtain ⟨p, k, i, -, e⟩ | ⟨-, -, e⟩ := nextPosition_cases hs
    · exact ⟨p, k, i, s.hostWait, s.responses, e⟩
    · exact ⟨.idle, s.iter, s.bitidx, false, s.responses ++ [Cause.none], e⟩

@[simp] theorem nextPosition_ops (s : MachineState cfg) : (nextPosition s).ops = s.ops := by
  obtain ⟨p, k, i, w, r, e⟩ := nextPosition_frame s
  rw [e]

@[simp] theorem nextPosition_pend (s : MachineState cfg) : (nextPosition s).pend = s.pend := by
  obtain ⟨p, k, i, w, r, e⟩ := nextPosition_frame s
  rw [e]

@[simp] theorem nextPosition_cause (s : MachineState cfg) : (nextPosition s).cause = s.cause := by
  obtain ⟨p, k, i, w, r, e⟩ := nextPosition_frame s
  rw [e]

@[simp] theorem nextPosition_payload (s : MachineState cfg) : (nextPosition s).payload = s.payload := by
  obtain ⟨p, k, i, w, r, e⟩ := nextPosition_frame s
  rw [e]

@[simp] theorem nextPosition_hostQueue (s : MachineState cfg) : (nextPosition s).hostQueue = s.hostQueue := by
  obtain ⟨p, k, i, w, r, e⟩ := nextPosition_frame s
  rw [e]

@[simp] theorem nextPosition_drvChan (s : MachineState cfg) : (nextPosition s).drvChan = s.drvChan := by
  obtain ⟨p, k, i, w, r, e⟩ := nextPosition_frame s
  rw [e]

@[simp] theorem nextPosition_drvAnswers (s : MachineState cfg) : (nextPosition s).drvAnswers = s.drvAnswers := by
  obtain ⟨p, k, i, w, r, e⟩ := nextPosition_frame s
  rw [e]

@[simp] theorem nextPosition_trace (s : MachineState cfg) : (nextPosition s).trace = s.trace := by
  obtain ⟨p, k, i, w, r, e⟩ := nextPosition_frame s
  rw [e]

/-- The position invariant is kept, and a call that goes on has one request more behind it (R28). -/
theorem nextPosition_advances (h : PositionInv s) (hs : s.phase ≠ .idle) (hb : s.pend = false) :
    PositionInv (nextPosition s) ∧ ((nextPosition s).phase ≠ .idle → issuedCount (nextPosition s) = issuedCount s + 1) := by
  cases hp : s.phase with
  | idle => exact absurd hp hs
  | headerMark => rw [nextPosition_of_headerMark hp]; exact headerMarkNext_advances s h hp hb
  | headerSpace => rw [nextPosition_of_headerSpace hp]; exact headerSpaceNext_advances s h hp hb
  | bitMark => rw [nextPosition_of_bitMark hp]; exact bitMarkNext_advances s h hp hb
  | bitSpace => rw [nextPosition_of_bitSpace hp]; exact bitSpaceNext_advances s h hp hb
  | gap => rw [nextPosition_of_gap hp]; exact gapNext_advances s h hp hb

theorem complete_congr {nxt nxt' : MachineState cfg → MachineState cfg}
    (h : ∀ rest, nxt (takeAnswer rest s) = nxt' (takeAnswer rest s)) : complete nxt s = complete nxt' s := by
  cases ha : s.drvAnswers with
  | nil => rw [complete_of_silent ha, complete_of_silent ha]
  | cons a rest =>
    cases a with
    | ok => rw [complete_of_ok ha, complete_of_ok ha]; exact h rest
    | fault => rw [complete_of_fault ha, complete_of_fault ha]

/-- In whichever phase, the completion step moves on to the next position (R115). -/
theorem completeCurrent_eq (hs : s.phase ≠ .idle) : completeCurrent s = .next (complete nextPosition s) := by
  rw [completeCurrent]
  cases hp : s.phase with
  | idle => exact absurd hp hs
  | headerMark => exact congrArg _ (complete_congr fun rest => (nextPosition_of_headerMark (s := takeAnswer rest s) hp).symm)
  | headerSpace => exact congrArg _ (complete_congr fun rest => (nextPosition_of_headerSpace (s := takeAnswer rest s) hp).symm)
  | bitMark => exact congrArg _ (complete_congr fun rest => (nextPosition_of_bitMark (s := takeAnswer rest s) hp).symm)
  | bitSpace => exact congrArg _ (complete_congr fun rest => (nextPosition_of_bitSpace (s := takeAnswer rest s) hp).symm)
  | gap => exact congrArg _ (complete_congr fun rest => (nextPosition_of_gap (s := takeAnswer rest s) hp).symm)

/-- Everything a completion step can do in a running call, by the driver's answer (R115, R145, R157). -/
theorem completeCurrent_outcomes (h : completeCurrent s = .next t) : s.phase ≠ .idle ∧
    ((s.drvAnswers = [] ∧ t = s) ∨
      (∃ rest, s.drvAnswers = .ok :: rest ∧ t = nextPosition (takeAnswer rest s)) ∨
      (∃ rest, s.drvAnswers = .fault :: rest ∧ t = raise .drvFault (takeAnswer rest s))) := by
  have hs := running_of_completeCurrent h
  rw [completeCurrent_eq hs] at h
  obtain rfl := Host.Outcome.next.inj h
  exact ⟨hs, complete_cases nextPosition s⟩

theorem completeCurrent_of_ok {rest : List Answer} (hs : s.phase ≠ .idle) (ha : s.drvAnswers = .ok :: rest) :
    completeCurrent s = .next (nextPosition (takeAnswer rest s)) := by
  rw [completeCurrent_eq hs, complete_of_ok ha]
  rfl

theorem turn_of_host {l : Launch cfg} {queue : List (Launch cfg)} (hb : s.pend = false) (hp : s.phase = .idle)
    (hw : s.hostWait = false) (hq : s.hostQueue = l :: queue) : turn s = .host l queue := by
  simp [turn, hb, hp, hw, hq]

/-- In `IDLE` with a launch to send, the step is `TRANSMIT` with the launch's buffer bound (R101). -/
theorem stepOn_of_host {l : Launch cfg} {queue : List (Launch cfg)} (hb : s.pend = false) (hp : s.phase = .idle)
    (hw : s.hostWait = false) (hq : s.hostQueue = l :: queue) :
    stepOn cfg s = .next (acceptDescriptor cfg l.desc (hostSends l queue s)) := by
  rw [stepOn, turn_of_host hb hp hw hq]
  exact transmit_of_enabled hp hw

theorem stepOn_of_nobody (h : turn s = .nobody) : stepOn cfg s = .next s := by
  rw [stepOn, h]

end Sys2Proof.Machine
end

section
/-! PROOF. The invariant of the machine (10_state.md sections 3 to 5): clause by clause, every step of every platform keeps it, so
every reachable state has it. -/

namespace Sys2Proof.Machine

variable {cfg : Config} {s t : MachineState cfg}

/-- A `TRANSMIT` step sets the host waiting exactly if it starts a call (R104, R106). -/
theorem acceptDescriptor_waiting (d : Descriptor cfg) (s : MachineState cfg) :
    (acceptDescriptor cfg d s).hostWait = (acceptDescriptor cfg d s).busy := by
  obtain ⟨-, e⟩ | ⟨c, -, -, e⟩ | ⟨-, -, e⟩ := acceptDescriptor_cases d s <;> rw [e] <;> rfl

theorem busy_of_running (hs : s.phase ≠ .idle) : s.busy = true := decide_eq_true hs

theorem busy_of_idle (hs : s.phase = .idle) : s.busy = false := decide_eq_false (not_not_intro hs)

/-- Moving on leaves the host waiting exactly if the call goes on (R106, R122). -/
theorem nextPosition_waiting (hs : s.phase ≠ .idle) (hw : s.hostWait = s.busy) :
    (nextPosition s).hostWait = (nextPosition s).busy := by
  obtain ⟨p, k, i, hp, e⟩ | ⟨-, -, e⟩ := nextPosition_cases hs <;> rw [e]
  · exact (hw.trans (busy_of_running hs)).trans (busy_of_running (by exact hp)).symm
  · rfl

/-- The host waits exactly while a call runs, and every step keeps this (R29, R36). -/
theorem stepOn_keeps_waiting (hw : s.hostWait = s.busy) (h : stepOn cfg s = .next t) : t.hostWait = t.busy := by
  obtain ⟨-, rfl⟩ | ⟨l, rest, -, -, -, -, rfl⟩ | ⟨q, -, -, -, rfl⟩ | ⟨q, -, -, hc⟩ := stepOn_cases h
  · exact hw
  · exact acceptDescriptor_waiting _ _
  · exact hw
  · obtain ⟨hs, ⟨-, rfl⟩ | ⟨rest, -, rfl⟩ | ⟨rest, -, rfl⟩⟩ := completeCurrent_outcomes hc
    · exact hw
    · exact nextPosition_waiting (s := takeAnswer rest s) hs hw
    · rfl

/-- A `TRANSMIT` step issues nothing (R104). -/
theorem acceptDescriptor_pend (d : Descriptor cfg) (s : MachineState cfg) :
    (acceptDescriptor cfg d s).pend = false := by
  obtain ⟨-, e⟩ | ⟨c, -, -, e⟩ | ⟨-, -, e⟩ := acceptDescriptor_cases d s <;> rw [e] <;> rfl

/-- A `TRANSMIT` step leaves the driver's channel alone. -/
theorem acceptDescriptor_drvChan (d : Descriptor cfg) (s : MachineState cfg) :
    (acceptDescriptor cfg d s).drvChan = s.drvChan := by
  obtain ⟨-, e⟩ | ⟨c, -, -, e⟩ | ⟨-, -, e⟩ := acceptDescriptor_cases d s <;> rw [e] <;> rfl

/-- Handing a request over does not move the position. -/
theorem timingMux_issue (q : Request cfg) (s : MachineState cfg) : timingMux (issue q s) = timingMux s := rfl

/-- Every step keeps the invariant's clause on the request in flight (R30, R35). -/
theorem stepOn_keeps_flight (hi : Inv s) (h : stepOn cfg s = .next t) (hb : t.pend = true) :
    ∃ q, timingMux t = some q ∧ t.drvChan = some q ∧ t.trace.getLast? = some q := by
  obtain ⟨-, rfl⟩ | ⟨l, rest, -, -, -, -, rfl⟩ | ⟨q, -, -, hq, rfl⟩ | ⟨q, -, -, hc⟩ := stepOn_cases h
  · exact hi.flight hb
  · simp [acceptDescriptor_pend] at hb
  · exact ⟨q, (timingMux_issue q s).trans hq, rfl, List.getLast?_concat⟩
  · obtain ⟨-, ⟨-, rfl⟩ | ⟨rest, -, rfl⟩ | ⟨rest, -, rfl⟩⟩ := completeCurrent_outcomes hc
    · exact hi.flight hb
    · simp at hb
    · simp at hb

/-- Every step keeps the invariant's clause on the empty channel (R30). -/
theorem stepOn_keeps_noFlight (hi : Inv s) (h : stepOn cfg s = .next t) (hb : t.pend = false) : t.drvChan = none := by
  obtain ⟨-, rfl⟩ | ⟨l, rest, hb', -, -, -, rfl⟩ | ⟨q, -, -, hq, rfl⟩ | ⟨q, -, -, hc⟩ := stepOn_cases h
  · exact hi.noFlight hb
  · rw [acceptDescriptor_drvChan]
    exact hi.noFlight hb'
  · simp at hb
  · obtain ⟨-, ⟨-, rfl⟩ | ⟨rest, -, rfl⟩ | ⟨rest, -, rfl⟩⟩ := completeCurrent_outcomes hc
    · exact hi.noFlight hb
    · simp
    · simp

/-- Every step of every platform keeps the invariant, each clause by its own lemma. -/
theorem stepOn_keeps_inv (hi : Inv s) (h : stepOn cfg s = .next t) : Inv t where
  position := stepOn_keeps_positionInv hi.position h
  waiting := stepOn_keeps_waiting hi.waiting h
  cause := (stepOn_causeEffect h).cause_eq_none hi.cause
  config := stepOn_keeps_config hi h
  payload := stepOn_keeps_payload_wf hi.payload h
  flight := stepOn_keeps_flight hi h
  noFlight := stepOn_keeps_noFlight hi h
  carrier := stepOn_keeps_carrier hi h

/-- Settles O50. -/
theorem platformStepKeepsInv : Obligations.PlatformStepKeepsInv :=
  fun _ _ _ => stepOn_keeps_inv

/-- Settles O31: the step of the fixed names is the default platform's. -/
theorem stepKeepsInv : Obligations.StepKeepsInv :=
  fun s t hi h => stepOn_keeps_inv hi ((step_eq_next_iff s t).mp h)

/-- Settles O52: the invariant gives the position and the canonical payload that the train's entries need. -/
theorem platformStepKeepsTraceInv : Obligations.PlatformStepKeepsTraceInv :=
  fun _ _ _ hi ht h => stepOn_keeps_traceInv hi.position hi.payload ht h

/-- Settles O34: the step of the fixed names is the default platform's. -/
theorem stepKeepsTraceInv : Obligations.StepKeepsTraceInv :=
  fun s t hi ht h => platformStepKeepsTraceInv _ _ _ hi ht ((step_eq_next_iff s t).mp h)

/-- An idle machine with nothing in flight has the invariant, whatever its operands and counters hold. -/
theorem Inv.of_idle (hp : s.phase = .idle) (hb : s.pend = false) (hw : s.hostWait = false) (hd : s.drvChan = none)
    (hm : Memory.wf cfg s.payload = true) : Inv s where
  position := .of_idle hp hb
  waiting := hw.trans (busy_of_idle hp).symm
  cause := fun hs => absurd hp hs
  config := fun hs => absurd hp hs
  payload := hm
  flight := fun hb' => by simp [hb] at hb'
  noFlight := fun _ => hd
  carrier := fun hs => absurd hp hs

theorem wf_nil : Memory.wf cfg [] = true := (wf_iff []).mpr ⟨rfl, Nat.zero_le _⟩

/-- Settles O32: after reset the machine is idle and its payload memory empty. -/
theorem resetHasInv : Obligations.ResetHasInv :=
  ⟨fun _ _ => .of_idle rfl rfl rfl rfl wf_nil, fun _ _ _ => .of_idle rfl rfl rfl rfl wf_nil⟩

/-- What every step keeps holds at the end of a run if it holds at its start, on every platform. -/
theorem stepsOn_induction {P : MachineState cfg → Prop} (hstep : ∀ s t, P s → stepOn cfg s = .next t → P t) {n : Nat}
    (hs : P s) (h : stepsOn cfg n s t) : P t := by
  induction n generalizing s with
  | zero => exact h ▸ hs
  | succ n ih =>
    obtain ⟨u, hsu, hut⟩ := h
    exact ih (hstep _ _ hs hsu) hut

/-- Settles O51: reset is idle, and every step keeps the position invariant. -/
theorem platformReachableStatesHavePositionInv : Obligations.PlatformReachableStatesHavePositionInv := by
  intro cfg s ⟨launches, answers, n, hn⟩
  exact stepsOn_induction (fun _ _ => stepOn_keeps_positionInv) (.of_idle rfl rfl) hn

/-- Settles O33: the same at the default parameters. -/
theorem reachableStatesHavePositionInv : Obligations.ReachableStatesHavePositionInv :=
  fun _ => reachable_induction (fun _ _ => .of_idle rfl rfl) fun _ _ => stepOn_keeps_positionInv

end Sys2Proof.Machine
end

section
/-! PROOF. One response for each descriptor (40_transmit_command.md R100, R106): the answers got, the call waited for and the
launches still to be sent are conserved. -/

namespace Sys2Proof.Machine

variable {cfg : Config} {s t : MachineState cfg}

/-- The launches answered, being answered and still to be sent. -/
def launchCount (s : MachineState cfg) : Nat :=
  s.responses.length + (if s.hostWait = true then 1 else 0) + s.hostQueue.length

/-- A `TRANSMIT` step answers its descriptor or sets the host waiting for the answer (R103, R104, R107). -/
theorem acceptDescriptor_launchCount (d : Descriptor cfg) (hw : s.hostWait = false) :
    launchCount (acceptDescriptor cfg d s) = launchCount s + 1 := by
  obtain ⟨-, e⟩ | ⟨c, -, -, e⟩ | ⟨-, -, e⟩ := acceptDescriptor_cases d s <;> rw [e] <;> simp [launchCount, hw] <;> omega

/-- A response ends the host's wait (R106). -/
theorem respond_launchCount (c : Cause) (hw : s.hostWait = true) : launchCount (respond c s) = launchCount s := by
  simp [launchCount, hw]

theorem nextPosition_launchCount (hs : s.phase ≠ .idle) (hw : s.hostWait = true) :
    launchCount (nextPosition s) = launchCount s := by
  obtain ⟨p, k, i, -, e⟩ | ⟨-, -, e⟩ := nextPosition_cases hs <;> rw [e]
  · rfl
  · exact respond_launchCount .none hw

/-- Every step, on every platform, keeps the count. -/
theorem stepOn_launchCount (hwait : s.hostWait = s.busy) (h : stepOn cfg s = .next t) : launchCount t = launchCount s := by
  obtain ⟨-, rfl⟩ | ⟨l, rest, -, -, hw, hq, rfl⟩ | ⟨q, -, -, -, rfl⟩ | ⟨q, -, -, hc⟩ := stepOn_cases h
  · rfl
  · rw [acceptDescriptor_launchCount (s := hostSends l rest s) l.desc hw]
    simp [launchCount, hq, hw]
    omega
  · rfl
  · obtain ⟨hs, ho⟩ := completeCurrent_outcomes hc
    have hw : s.hostWait = true := hwait.trans (busy_of_running hs)
    obtain ⟨-, rfl⟩ | ⟨rest, -, rfl⟩ | ⟨rest, -, rfl⟩ := ho
    · rfl
    · exact nextPosition_launchCount (s := takeAnswer rest s) hs hw
    · exact respond_launchCount .drvFault hw

/-- Settles O30: the count of the default platform. -/
theorem eachDescriptorAnsweredOnce : Obligations.EachDescriptorAnsweredOnce :=
  fun s t hi h => stepOn_launchCount hi.waiting ((step_eq_next_iff s t).mp h)

end Sys2Proof.Machine
end

section
/-! PROOF. Runs (00_scope.md R9): how they compose, and that the runs of the fixed names are those of the default platform. -/

namespace Sys2Proof.Machine

variable {cfg : Config}

theorem stepsOn_one {s t : MachineState cfg} (h : stepOn cfg s = .next t) : stepsOn cfg 1 s t := ⟨t, h, rfl⟩

theorem stepsOn_add {n m : Nat} {s u t : MachineState cfg} (h : stepsOn cfg n s u) (h' : stepsOn cfg m u t) :
    stepsOn cfg (n + m) s t := by
  induction n generalizing s with
  | zero =>
    obtain rfl : s = u := h
    rwa [Nat.zero_add]
  | succ n ih =>
    obtain ⟨v, hsv, hvu⟩ := h
    rw [Nat.succ_add]
    exact ⟨v, hsv, ih hvu⟩

/-- A state that steps to itself is the end of each of its runs, of any length. -/
theorem stepsOn_of_fixed {s t : MachineState cfg} (h : stepOn cfg s = .next s) (n : Nat) :
    stepsOn cfg n s t ↔ t = s := by
  induction n with
  | zero => exact eq_comm
  | succ n ih =>
    rw [← ih]
    refine ⟨fun ⟨u, hu, hut⟩ => ?_, fun ht => ⟨s, h, ht⟩⟩
    obtain rfl := Host.Outcome.next.inj (h.symm.trans hu)
    exact hut

/-- A run of the fixed names is a run of the default platform on the records. -/
theorem stepsTo_iff (n : Nat) (s t : State) :
    stepsTo n s t ↔ stepsOn Config.default n s.toMachineState t.toMachineState := by
  induction n generalizing s with
  | zero =>
    obtain ⟨s⟩ := s
    obtain ⟨t⟩ := t
    exact (State.mk.injEq s t).to_iff
  | succ n ih =>
    refine ⟨fun ⟨u, hsu, hut⟩ => ⟨u.toMachineState, (step_eq_next_iff s u).mp hsu, (ih u).mp hut⟩, fun ⟨u, hsu, hut⟩ => ?_⟩
    exact ⟨⟨u⟩, (step_eq_next_iff s ⟨u⟩).mpr hsu, (ih ⟨u⟩).mpr hut⟩

theorem ofDefault_eq_fault_iff (r : ResultOn Config.default) (e : Fault) : Result.ofDefault r = .fault e ↔ r = .fault e := by
  cases r <;> simp [Result.ofDefault]

/-- Settles O49: by `step_eq`, step for step. -/
theorem runsAreDefaultPlatformRuns : Obligations.RunsAreDefaultPlatformRuns := by
  refine ⟨stepsTo_iff, fun s e => ?_, fun s => ?_⟩
  · rw [step_eq, ofDefault_eq_fault_iff]
  · exact exists_congr fun launches => exists_congr fun answers => exists_congr fun n => stepsTo_iff n _ s

variable {s : MachineState cfg}

/-- A request that the driver does not answer leaves the machine as it is (R145). -/
theorem stepOn_of_silent (hi : Inv s) (hb : s.pend = true) (ha : s.drvAnswers = []) : stepOn cfg s = .next s := by
  have hs : s.phase ≠ .idle := fun hp => by simp [hi.position.idle hp] at hb
  obtain ⟨q, -, hd, -⟩ := hi.flight hb
  rw [stepOn_of_flight hb hd, completeCurrent_eq hs, complete_of_silent ha]

/-- Settles O7: the state steps to itself. -/
theorem silentDriverHangsForever : Obligations.SilentDriverHangsForever := by
  intro n s t hi hb ha
  rw [stepsTo_iff, stepsOn_of_fixed (stepOn_of_silent hi hb ha)]
  exact (State.mk.injEq _ _).to_iff.symm

theorem turn_of_nothing_to_send (hp : s.phase = .idle) (hb : s.pend = false) (hw : s.hostWait = false)
    (hq : s.hostQueue = []) : turn s = .nobody := by
  simp [turn, hp, hb, hw, hq]

/-- Settles O8: it is nobody's turn, so the state steps to itself. -/
theorem idleWithoutCommandWaits : Obligations.IdleWithoutCommandWaits := by
  intro n s t hp hb hw hq
  rw [stepsTo_iff, stepsOn_of_fixed (stepOn_of_nobody (turn_of_nothing_to_send hp hb hw hq))]
  exact (State.mk.injEq _ _).to_iff.symm

end Sys2Proof.Machine
end

section
/-! PROOF. A whole call (41_sequencer_phases.md section 8): a call at a request boundary with `k` requests behind it goes on to
the next boundary when its request is answered `OK`, ends with the train as its trace after the last one, and is aborted
with the requests issued so far where one fails. -/

namespace Sys2Proof.Machine

variable {cfg : Config} {s : MachineState cfg} {r : OperandRegs cfg} {m : Memory} {k : Nat}

theorem train_length (hm : r.nbytes.toNat ≤ m.length) : (train r m).length = callLength r := by
  simp [train, iteration_length hm, callLength]

/-- A running call with a long enough payload has a request at every position (R113, 20_memory.md R55). -/
theorem exists_request_of_long (h : PositionInv s) (hwf : Memory.wf cfg s.payload = true) (hlong : payloadLongEnough s)
    (hs : s.phase ≠ .idle) : ∃ q, timingMux s = some q := by
  refine Option.ne_none_iff_exists'.mp fun hnone => ?_
  obtain ⟨hp, hr⟩ := (timingMux_eq_none_iff hs).mp hnone
  obtain ⟨b, hb⟩ := exists_read_of_bit hwf hlong (h.bit (.inr hp))
  simp [hr] at hb

/-- A call with operands `r` on the buffer `m` at a request boundary: `k` requests of its train have been issued and
answered, and the next is not yet issued. -/
structure AtRequest (r : OperandRegs cfg) (m : Memory) (k : Nat) (s : MachineState cfg) : Prop where
  running : s.phase ≠ .idle
  settled : s.pend = false
  ops : s.ops = r
  payload : s.payload = m
  cause : s.cause = .none
  position : PositionInv s
  count : issuedCount s = k
  trace : s.trace = (train r m).take k

/-- What a call does not touch before it answers: the launches still to be sent and the responses. -/
structure SameHost (s t : MachineState cfg) : Prop where
  hostQueue : t.hostQueue = s.hostQueue
  responses : t.responses = s.responses

theorem SameHost.trans {u t : MachineState cfg} (h : SameHost s u) (h' : SameHost u t) : SameHost s t :=
  ⟨h'.hostQueue.trans h.hostQueue, h'.responses.trans h.responses⟩

/-- The train continues with the current position's request (R113, R126). -/
theorem AtRequest.timingMux_eq (h : AtRequest r m k s) (hwf : Memory.wf cfg m = true) (hm : r.nbytes.toNat ≤ m.length) :
    timingMux s = (train r m)[k]? := by
  obtain ⟨hs, hb, rfl, rfl, -, hpos, rfl, -⟩ := h
  exact (train_getElem?_issuedCount hpos hwf hm hs hb).symm

/-- At a boundary in a running call there is a request to issue. -/
theorem AtRequest.exists_request (h : AtRequest r m k s) (hwf : Memory.wf cfg m = true)
    (hm : r.nbytes.toNat ≤ m.length) : ∃ q, timingMux s = some q ∧ (train r m)[k]? = some q := by
  have hmux := h.timingMux_eq hwf hm
  obtain ⟨hs, -, rfl, rfl, -, hpos, -, -⟩ := h
  obtain ⟨q, hq⟩ := exists_request_of_long hpos hwf hm hs
  exact ⟨q, hq, hmux.symm.trans hq⟩

theorem AtRequest.lt_callLength (h : AtRequest r m k s) (hwf : Memory.wf cfg m = true)
    (hm : r.nbytes.toNat ≤ m.length) : k < callLength r := by
  obtain ⟨q, -, hq⟩ := h.exists_request hwf hm
  obtain ⟨hk, -⟩ := List.getElem?_eq_some_iff.mp hq
  rwa [train_length hm] at hk

/-- The issue step at a boundary, and the train's part that it completes (R114). -/
theorem AtRequest.issues (h : AtRequest r m k s) (hwf : Memory.wf cfg m = true) (hm : r.nbytes.toNat ≤ m.length) :
    ∃ q, stepOn cfg s = .next (issue q s) ∧ (issue q s).trace = (train r m).take (k + 1) := by
  obtain ⟨q, hq, htrain⟩ := h.exists_request hwf hm
  refine ⟨q, stepOn_of_timingMux h.running h.settled hq, ?_⟩
  rw [issue_trace, h.trace, List.take_add_one, htrain]
  rfl

/-- Moving on from a boundary comes to the next boundary, or ends the call. -/
theorem AtRequest.next (h : AtRequest r m k s) (q : Request cfg) (rest : List Answer)
    (ht : (issue q s).trace = (train r m).take (k + 1))
    (hgo : (nextPosition (takeAnswer rest (issue q s))).phase ≠ .idle) :
    AtRequest r m (k + 1) (nextPosition (takeAnswer rest (issue q s))) := by
  have hpos : PositionInv (takeAnswer rest (issue q s)) :=
    h.position.of_same_position rfl rfl rfl rfl fun _ => rfl
  obtain ⟨hpos', hcount⟩ := nextPosition_advances hpos h.running rfl
  have hbefore : issuedCount (takeAnswer rest (issue q s)) = k := by
    rw [← h.count]
    simp [issuedCount, placeInIteration, h.settled]
  exact
    { running := hgo
      settled := by simp
      ops := by simp [h.ops]
      payload := by simp [h.payload]
      cause := by simp [h.cause]
      position := hpos'
      count := by rw [hcount hgo, hbefore]
      trace := by simpa using ht }

/-- In the last iteration the gap's request is the call's last (R121, R126). -/
theorem issuedCount_of_last_gap (h : PositionInv s) (hp : s.phase = .gap) (hb : s.pend = false)
    (hk : ¬ s.iter < s.ops.repeats) : issuedCount s + 1 = callLength s.ops := by
  have hle := h.iter (.inr (.inr (.inl hp)))
  have hlast : s.iter.toNat = s.ops.repeats.toNat := Nat.le_antisymm hle (Nat.not_lt.mp hk)
  simp only [issuedCount, placeInIteration, callLength, iterationLength, hp, hb, hlast, Bool.false_eq_true, if_false]
  ring

/-- The call goes on exactly while requests of its train are left (R121, R122). -/
theorem AtRequest.goes_on_iff (h : AtRequest r m k s) (hwf : Memory.wf cfg m = true) (hm : r.nbytes.toNat ≤ m.length)
    (q : Request cfg) (rest : List Answer) (ht : (issue q s).trace = (train r m).take (k + 1)) :
    (nextPosition (takeAnswer rest (issue q s))).phase ≠ .idle ↔ k + 1 < callLength r := by
  refine ⟨fun hgo => (h.next q rest ht hgo).lt_callLength hwf hm, fun hk => ?_⟩
  obtain ⟨p, i, j, hp, e⟩ | ⟨hgap, hlast, -⟩ := nextPosition_cases (s := takeAnswer rest (issue q s)) h.running
  · rwa [e]
  · have hend := issuedCount_of_last_gap h.position hgap h.settled hlast
    rw [h.count, h.ops] at hend
    omega

/-- An `OK` to the request of a boundary leads to the next boundary, if the call has one. -/
theorem AtRequest.answered_ok (h : AtRequest r m k s) (hwf : Memory.wf cfg m = true) (hm : r.nbytes.toNat ≤ m.length)
    (hk : k + 1 < callLength r) {rest : List Answer} (ha : s.drvAnswers = .ok :: rest) :
    ∃ u, stepsOn cfg 2 s u ∧ AtRequest r m (k + 1) u ∧ SameHost s u ∧ u.drvAnswers = rest := by
  obtain ⟨q, hstep, ht⟩ := h.issues hwf hm
  have hgo := (h.goes_on_iff hwf hm q rest ht).mpr hk
  refine ⟨_, ⟨_, hstep, stepsOn_one ?_⟩, h.next q rest ht hgo, ⟨by simp, ?_⟩, by simp⟩
  · rw [stepOn_of_flight rfl rfl]
    exact completeCurrent_of_ok h.running ha
  · obtain ⟨p, i, j, -, e⟩ | ⟨-, -, e⟩ := nextPosition_cases (s := takeAnswer rest (issue q s)) h.running
    · rw [e]
      rfl
    · exact absurd (congrArg MachineState.phase e) hgo

/-- `j` answers `OK` lead `j` boundaries on. -/
theorem AtRequest.advance (hwf : Memory.wf cfg m = true) (hm : r.nbytes.toNat ≤ m.length) (answers : List Answer) (j : Nat)
    (h : AtRequest r m k s) (hk : k + j < callLength r) (ha : s.drvAnswers = List.replicate j .ok ++ answers) :
    ∃ u, stepsOn cfg (2 * j) s u ∧ AtRequest r m (k + j) u ∧ SameHost s u ∧ u.drvAnswers = answers := by
  induction j generalizing s k with
  | zero => exact ⟨s, rfl, h, ⟨rfl, rfl⟩, ha⟩
  | succ j ih =>
    obtain ⟨u, hsu, hu, hhost, hau⟩ := h.answered_ok hwf hm (by omega) ha
    obtain ⟨v, huv, hv, hhost', hav⟩ := ih hu (by omega) hau
    refine ⟨v, ?_, ?_, hhost.trans hhost', hav⟩
    · rw [Nat.mul_succ, Nat.add_comm]
      exact stepsOn_add hsu huv
    · rwa [Nat.add_right_comm] at hv

/-- An `OK` to the last request ends the call with response 0 (R122). -/
theorem AtRequest.finish (h : AtRequest r m k s) (hwf : Memory.wf cfg m = true) (hm : r.nbytes.toNat ≤ m.length)
    (hk : k + 1 = callLength r) {rest : List Answer} (ha : s.drvAnswers = .ok :: rest) :
    ∃ t, stepsOn cfg 2 s t ∧ t.trace = train r m ∧ t.responses = s.responses ++ [.none] ∧ t.phase = .idle ∧
      t.pend = false ∧ t.cause = .none ∧ t.hostWait = false ∧ t.ops = r ∧ t.payload = m ∧
      t.hostQueue = s.hostQueue ∧ t.drvAnswers = rest := by
  obtain ⟨q, hstep, ht⟩ := h.issues hwf hm
  have hend : (nextPosition (takeAnswer rest (issue q s))).phase = .idle :=
    not_not.mp ((h.goes_on_iff hwf hm q rest ht).not.mpr (by omega))
  have hwhole : (issue q s).trace = train r m := by
    rw [ht, hk, ← train_length hm, List.take_length]
  refine ⟨nextPosition (takeAnswer rest (issue q s)), ⟨_, hstep, stepsOn_one ?_⟩, ?_⟩
  · rw [stepOn_of_flight rfl rfl]
    exact completeCurrent_of_ok h.running ha
  · obtain ⟨p, i, j, hp, e⟩ | ⟨-, -, e⟩ := nextPosition_cases (s := takeAnswer rest (issue q s)) h.running
    · exact absurd ((congrArg MachineState.phase e).symm.trans hend) hp
    · rw [e]
      exact ⟨hwhole, rfl, rfl, rfl, h.cause, rfl, h.ops, h.payload, rfl, rfl⟩

/-- A `FAULT` to the request of a boundary aborts the call with response 4 (R157). -/
theorem AtRequest.abort (h : AtRequest r m k s) (hwf : Memory.wf cfg m = true) (hm : r.nbytes.toNat ≤ m.length)
    {rest : List Answer} (ha : s.drvAnswers = .fault :: rest) :
    ∃ t, stepsOn cfg 2 s t ∧ t.trace = (train r m).take (k + 1) ∧ t.responses = s.responses ++ [.drvFault] ∧
      t.phase = .idle ∧ t.pend = false ∧ t.cause = .drvFault ∧ t.hostWait = false ∧ t.ops = r ∧
      t.hostQueue = s.hostQueue ∧ t.drvAnswers = rest := by
  obtain ⟨q, hstep, ht⟩ := h.issues hwf hm
  refine ⟨raise .drvFault (takeAnswer rest (issue q s)), ⟨_, hstep, stepsOn_one ?_⟩, ?_⟩
  · rw [stepOn_of_flight rfl rfl]
    exact completeCurrent_of_fault h.running ha
  · exact ⟨ht, rfl, rfl, rfl, rfl, rfl, h.ops, rfl, rfl⟩

variable {l : Launch cfg} {queue : List (Launch cfg)}

/-- The buffer of a launch that holds the bytes it asks for holds them when it is bound (R50, R59). -/
theorem nbytes_le_ofBytes_length {n : BitVec cfg.NW} {p : List Byte} (h : n.toNat ≤ p.length) :
    n.toNat ≤ (Memory.ofBytes cfg p).length := by
  rw [ofBytes_length]
  exact Nat.le_min.mpr ⟨n.isLt.le, h⟩

/-- The `TRANSMIT` step of an acceptable launch starts its call at the first boundary (R104). -/
theorem start_atRequest (hidle : idlePremise s) (hq : s.hostQueue = l :: queue) (hacc : acceptable cfg l.desc) :
    ∃ u, stepOn cfg s = .next u ∧ AtRequest l.desc.operands (Memory.ofBytes cfg l.payload) 0 u ∧
      u.hostQueue = queue ∧ u.responses = s.responses ∧ u.drvAnswers = s.drvAnswers := by
  obtain ⟨hp, hb, hw, -⟩ := hidle
  obtain ⟨hop, hres, hc⟩ := hacc
  refine ⟨_, stepOn_of_host hb hp hw hq, ?_⟩
  rw [acceptDescriptor_of_legal hop hres, checkAndStart_of_passes hc]
  refine ⟨?_, rfl, rfl, rfl⟩
  exact
    { running := by simp
      settled := rfl
      ops := rfl
      payload := rfl
      cause := rfl
      position := .of_header (.inl rfl) (Nat.zero_le _) rfl
      count := by simp [issuedCount, placeInIteration]
      trace := rfl }

/-- An acceptable launch whose first `k` requests are answered `OK` comes to boundary `k`. -/
theorem reach_atRequest (hidle : idlePremise s) (hq : s.hostQueue = l :: queue) (hacc : acceptable cfg l.desc)
    (hm : l.desc.operands.nbytes.toNat ≤ l.payload.length) (hk : k < callLength l.desc.operands) {answers : List Answer}
    (ha : s.drvAnswers = List.replicate k .ok ++ answers) :
    ∃ u, stepsOn cfg (1 + 2 * k) s u ∧ AtRequest l.desc.operands (Memory.ofBytes cfg l.payload) k u ∧
      u.hostQueue = queue ∧ u.responses = s.responses ∧ u.drvAnswers = answers := by
  obtain ⟨u, hsu, hu, hqu, hru, hau⟩ := start_atRequest hidle hq hacc
  obtain ⟨v, huv, hv, hhost, hav⟩ :=
    hu.advance (wf_ofBytes _) (nbytes_le_ofBytes_length hm) answers k (by omega) (hau.trans ha)
  refine ⟨v, stepsOn_add (stepsOn_one hsu) huv, ?_, hhost.hostQueue.trans hqu, hhost.responses.trans hru, hav⟩
  rwa [Nat.zero_add] at hv

/-- A call has at least one request. -/
theorem callLength_pos (r : OperandRegs cfg) : 0 < callLength r :=
  Nat.mul_pos (Nat.succ_pos _) (by simp only [iterationLength]; omega)

/-- Settles O53: to the last boundary, and through it. -/
theorem platformCallEmitsWholeTrain : Obligations.PlatformCallEmitsWholeTrain := by
  intro cfg s l queue answers hidle hq hacc hm ha
  obtain ⟨k, hk⟩ : ∃ k, k + 1 = callLength l.desc.operands := ⟨_, Nat.sub_add_cancel (callLength_pos _)⟩
  rw [← hk, List.replicate_succ', List.append_assoc] at ha
  obtain ⟨u, hsu, hu, hqu, hru, hau⟩ := reach_atRequest hidle hq hacc hm (by omega) ha
  obtain ⟨t, hut, ht⟩ := hu.finish (wf_ofBytes _) (nbytes_le_ofBytes_length hm) hk hau
  rw [hru, hqu] at ht
  refine ⟨t, ?_, ht⟩
  rw [← hk, Nat.mul_succ, ← Nat.add_assoc]
  exact stepsOn_add hsu hut

/-- Settles O54: to boundary `k`, and the abort there. -/
theorem platformFaultedCallEmitsPrefix : Obligations.PlatformFaultedCallEmitsPrefix := by
  intro cfg s l queue answers k hidle hq hacc hm hk ha
  obtain ⟨u, hsu, hu, hqu, hru, hau⟩ := reach_atRequest hidle hq hacc hm hk ha
  obtain ⟨t, hut, ht⟩ := hu.abort (wf_ofBytes _) (nbytes_le_ofBytes_length hm) hau
  rw [hru, hqu] at ht
  refine ⟨t, ?_, ht⟩
  rw [Nat.mul_succ, ← Nat.add_assoc]
  exact stepsOn_add hsu hut

/-- Words decode to a `TRANSMIT` exactly if they are a legal descriptor's, and then to that descriptor (R77, R85). -/
theorem decode_words_eq_transmit_iff (l : Launch Config.default) (d : Descriptor Config.default) :
    decode (.cmd l.words) = .ok (.transmit d) ↔ l.desc = d ∧ d.op = opTransmit ∧ d.reserved = 0#15 := by
  simp only [decode, decodeCmd, Launch.words, descriptorOf_descriptorWords]
  split_ifs with hop hres
  · refine ⟨nofun, ?_⟩
    rintro ⟨rfl, h, -⟩
    exact hop h
  · refine ⟨nofun, ?_⟩
    rintro ⟨rfl, -, h⟩
    exact hres h
  · simp only [Except.ok.injEq, Instr.transmit.injEq]
    refine ⟨fun e => ⟨e, ?_⟩, fun ⟨e, _⟩ => e⟩
    rw [← e]
    exact ⟨not_not.mp hop, not_not.mp hres⟩

/-- Settles O35: the run of the default platform, on the fixed names. -/
theorem callEmitsWholeTrain : Obligations.CallEmitsWholeTrain := by
  intro s l queue d answers hidle hq hdec hc hm ha
  obtain ⟨rfl, hop, hres⟩ := (decode_words_eq_transmit_iff l d).mp hdec
  obtain ⟨t, hst, ht⟩ := platformCallEmitsWholeTrain _ s.toMachineState l queue answers hidle hq ⟨hop, hres, hc⟩ hm ha
  exact ⟨⟨t⟩, (stepsTo_iff _ s ⟨t⟩).mpr hst, ht⟩

/-- Settles O36: the run of the default platform, on the fixed names. -/
theorem faultedCallEmitsPrefix : Obligations.FaultedCallEmitsPrefix := by
  intro s l queue d answers k hidle hq hdec hc hm hk ha
  obtain ⟨rfl, hop, hres⟩ := (decode_words_eq_transmit_iff l d).mp hdec
  obtain ⟨t, hst, ht⟩ :=
    platformFaultedCallEmitsPrefix _ s.toMachineState l queue answers k hidle hq ⟨hop, hres, hc⟩ hm hk ha
  exact ⟨⟨t⟩, (stepsTo_iff _ s ⟨t⟩).mpr hst, ht⟩

end Sys2Proof.Machine
end

section
/-! PROOF. Where a phase moves on to is a function of the operands, the phase and the two counters alone (41_sequencer_phases.md
R116 to R120), so neither the payload nor the record of a run can change it. -/

namespace Sys2Proof.Machine

variable {cfg : Config}

/-- The phase and the counters after a completed phase; none at the end of the call (R116 to R122). -/
def nextPlace (r : OperandRegs cfg) (p : Phase) (k : BitVec cfg.RW) (i : BitVec (cfg.NW + 3)) :
    Option (Phase × BitVec cfg.RW × BitVec (cfg.NW + 3)) :=
  match p with
  | .idle => some (.idle, k, i)
  | .headerMark => some (.headerSpace, k, i)
  | .headerSpace => some (if r.nbytes = 0 then .gap else .bitMark, k, i)
  | .bitMark => some (.bitSpace, k, i)
  | .bitSpace => if i + 1 < totalBits r then some (.bitMark, k, i + 1) else some (.gap, k, i)
  | .gap => if k < r.repeats then some (.headerMark, k + 1, 0) else none

/-- The sequencer goes to a place, or ends the call with response 0. -/
def moveTo (place : Option (Phase × BitVec cfg.RW × BitVec (cfg.NW + 3))) (s : MachineState cfg) : MachineState cfg :=
  match place with
  | some (p, k, i) => { s with phase := p, iter := k, bitidx := i }
  | none => respond .none { s with phase := .idle }

theorem nextPosition_eq_moveTo (s : MachineState cfg) :
    nextPosition s = moveTo (nextPlace s.ops s.phase s.iter s.bitidx) s := by
  cases hp : s.phase with
  | idle =>
    have e : s = { s with phase := .idle } := by rw [← hp]
    exact (nextPosition_of_idle hp).trans e
  | headerMark => exact nextPosition_of_headerMark hp
  | headerSpace =>
    rw [nextPosition_of_headerSpace hp]
    obtain ⟨hn, e⟩ | ⟨hn, e⟩ := headerSpaceNext_cases s <;> simp only [e, nextPlace, hn, if_true, if_false] <;> rfl
  | bitMark => exact nextPosition_of_bitMark hp
  | bitSpace =>
    rw [nextPosition_of_bitSpace hp]
    obtain ⟨hn, e⟩ | ⟨hn, e⟩ := bitSpaceNext_cases s <;> simp only [e, nextPlace, hn, if_true, if_false] <;> rfl
  | gap =>
    rw [nextPosition_of_gap hp]
    obtain ⟨hn, e⟩ | ⟨hn, e⟩ := gapNext_cases s <;> simp only [e, nextPlace, hn, if_true, if_false] <;> rfl

end Sys2Proof.Machine
end

section
/-! PROOF. What the payload cannot change (41_sequencer_phases.md section 6): two machines that differ in their long enough
payloads only go through the same positions and issue requests of the same kinds. -/

namespace Sys2Proof.Machine

variable {cfg : Config} {s s' t : MachineState cfg}

/-- Every payload, bound or still to be bound, holds the bytes its command asks for (70_reset_and_hazards.md R191). -/
structure Supplied (s : MachineState cfg) : Prop where
  bound : s.phase ≠ .idle → payloadLongEnough s
  waiting : ∀ l ∈ s.hostQueue, l.desc.operands.nbytes.toNat ≤ l.payload.length

theorem acceptDescriptor_hostQueue (d : Descriptor cfg) (s : MachineState cfg) :
    (acceptDescriptor cfg d s).hostQueue = s.hostQueue := by
  obtain ⟨-, e⟩ | ⟨c, -, -, e⟩ | ⟨-, -, e⟩ := acceptDescriptor_cases d s <;> rw [e] <;> rfl

/-- Only a legal descriptor starts a call, and it is latched (R102, R104). -/
theorem acceptDescriptor_ops_of_starts {d : Descriptor cfg} (h : (acceptDescriptor cfg d s).phase ≠ .idle) :
    (acceptDescriptor cfg d s).ops = d.operands := by
  obtain ⟨-, e⟩ | ⟨c, -, -, e⟩ | ⟨-, -, e⟩ := acceptDescriptor_cases d s <;> rw [e] at h ⊢
  · exact absurd rfl h
  · exact absurd rfl h
  · rfl

theorem completeCurrent_hostQueue (h : completeCurrent s = .next t) : t.hostQueue = s.hostQueue := by
  obtain ⟨-, ⟨-, rfl⟩ | ⟨rest, -, rfl⟩ | ⟨rest, -, rfl⟩⟩ := completeCurrent_outcomes h <;> simp

theorem stepOn_keeps_supplied (hs : Supplied s) (h : stepOn cfg s = .next t) : Supplied t := by
  obtain ⟨-, rfl⟩ | ⟨l, rest, -, -, -, hq, rfl⟩ | ⟨q, -, -, -, rfl⟩ | ⟨q, -, -, hc⟩ := stepOn_cases h
  · exact hs
  · have hwait := hs.waiting
    rw [hq] at hwait
    refine ⟨fun hne => ?_, fun l' hl' => ?_⟩
    · rw [payloadLongEnough, MachineState.plen, acceptDescriptor_ops_of_starts hne, acceptDescriptor_payload]
      exact nbytes_le_ofBytes_length (hwait l List.mem_cons_self)
    · rw [acceptDescriptor_hostQueue] at hl'
      exact hwait l' (List.mem_cons_of_mem l hl')
  · exact ⟨hs.bound, hs.waiting⟩
  · refine ⟨fun _ => ?_, ?_⟩
    · rw [payloadLongEnough, MachineState.plen, completeCurrent_ops hc, completeCurrent_payload hc]
      exact hs.bound (running_of_completeCurrent hc)
    · rw [completeCurrent_hostQueue hc]
      exact hs.waiting

/-- The state with another payload, and with what carries a payload's durations or is the host's: the trace, the request in
flight, and the launches with their buffers. -/
def withPayload (m : Memory) (tr : List (Request cfg)) (ch : Option (Request cfg)) (queue : List (Launch cfg))
    (s : MachineState cfg) : MachineState cfg :=
  { s with payload := m, trace := tr, drvChan := ch, hostQueue := queue }

/-- The same machine but for the payloads: the descriptors still to be sent and the kinds of the requests agree. -/
structure PayloadTwin (s s' : MachineState cfg) : Prop where
  same : ∃ m tr ch queue, s' = withPayload m tr ch queue s
  kinds : s'.trace.map requestModulated = s.trace.map requestModulated
  descs : s'.hostQueue.map Launch.desc = s.hostQueue.map Launch.desc

variable {m : Memory} {tr : List (Request cfg)} {ch : Option (Request cfg)} {queue : List (Launch cfg)}

/-- A descriptor is accepted or refused whatever the payload (R102, R103, R107). -/
theorem acceptDescriptor_withPayload (d : Descriptor cfg) (s : MachineState cfg) :
    acceptDescriptor cfg d (withPayload m tr ch queue s) = withPayload m [] ch queue (acceptDescriptor cfg d s) := by
  simp only [acceptDescriptor, checkAndStart, latch_ops]
  cases legalDescriptor d with
  | false => rfl
  | true => cases configFault cfg d.operands <;> rfl

theorem nextPosition_withPayload (s : MachineState cfg) :
    nextPosition (withPayload m tr ch queue s) = withPayload m tr ch queue (nextPosition s) := by
  rw [nextPosition_eq_moveTo, nextPosition_eq_moveTo s]
  show moveTo (nextPlace s.ops s.phase s.iter s.bitidx) _ = _
  cases nextPlace s.ops s.phase s.iter s.bitidx <;> rfl

/-- The completion step is the same whatever the payload (R115). -/
theorem complete_withPayload (s : MachineState cfg) : ∃ ch',
    complete nextPosition (withPayload m tr ch queue s) = withPayload m tr ch' queue (complete nextPosition s) := by
  cases ha : s.drvAnswers with
  | nil => exact ⟨ch, by rw [complete_of_silent ha, complete_of_silent (s := withPayload m tr ch queue s) ha]⟩
  | cons a rest =>
    refine ⟨none, ?_⟩
    cases a with
    | ok =>
      rw [complete_of_ok ha, complete_of_ok (s := withPayload m tr ch queue s) ha, ← nextPosition_withPayload]
      rfl
    | fault =>
      rw [complete_of_fault ha, complete_of_fault (s := withPayload m tr ch queue s) ha]
      rfl

/-- The kind of a phase's request is fixed by the phase (R113). -/
theorem requestModulated_of_timingMux {q : Request cfg} (h : timingMux s = some q) :
    requestModulated q = decide (s.phase = .headerMark ∨ s.phase = .bitMark) := by
  cases hp : s.phase with
  | idle => simp [timingMux, hp] at h
  | headerMark =>
    obtain rfl := Option.some.inj ((timingMux_of_headerMark hp).symm.trans h)
    rfl
  | headerSpace =>
    obtain rfl := Option.some.inj ((timingMux_of_headerSpace hp).symm.trans h)
    rfl
  | bitMark =>
    obtain rfl := Option.some.inj ((timingMux_of_bitMark hp).symm.trans h)
    rfl
  | bitSpace =>
    rw [timingMux_of_bitSpace hp, currentBitSpaceReq] at h
    cases hb : payloadBit s.ops.order s.payload s.bitidx with
    | none => simp [hb] at h
    | some b =>
      obtain rfl : bitSpaceReq s.ops b = q := by simpa [hb] using h
      rfl
  | gap =>
    obtain rfl := Option.some.inj ((timingMux_of_gap hp).symm.trans h)
    rfl

/-- Where nobody has a step, nothing is in flight and the host has nothing to send (R101, R114, R115). -/
theorem nothing_to_send_of_turn (hi : Inv s) (h : turn s = .nobody) :
    s.phase = .idle ∧ s.pend = false ∧ s.hostWait = false ∧ s.hostQueue = [] := by
  have hb : s.pend = false := by
    by_contra hne
    have hpend : s.pend = true := by simpa using hne
    obtain ⟨q, -, hd, -⟩ := hi.flight hpend
    simp [turn, hpend, hd] at h
  have hp : s.phase = .idle := by
    by_contra hne
    simp [turn, hb, hne] at h
  have hw : s.hostWait = false := hi.waiting.trans (busy_of_idle hp)
  refine ⟨hp, hb, hw, ?_⟩
  cases hq : s.hostQueue with
  | nil => rfl
  | cons l rest => simp [turn, hb, hp, hw, hq] at h

/-- The simulation: whatever step the one machine has, its twin has the corresponding one. -/
theorem stepOn_twin (h : PayloadTwin s s') (hi : Inv s) (hi' : Inv s') (hlong : Supplied s')
    (hstep : stepOn cfg s = .next t) : ∃ t', stepOn cfg s' = .next t' ∧ PayloadTwin t t' := by
  obtain ⟨⟨m, tr, ch, queue, rfl⟩, hkinds, hdescs⟩ := h
  obtain ⟨hn, rfl⟩ | ⟨l, rest, hb, hp, hw, hq, rfl⟩ | ⟨q, hb, hs, hq, rfl⟩ | ⟨q, hb, -, hc⟩ := stepOn_cases hstep
  · obtain ⟨hp, hb, hw, hq⟩ := nothing_to_send_of_turn hi hn
    have hq' : queue = [] := by simpa [hq, withPayload] using hdescs
    exact ⟨_, stepOn_of_nobody (turn_of_nothing_to_send hp hb hw hq'), ⟨_, _, _, _, rfl⟩, hkinds, hdescs⟩
  · obtain ⟨l', rest', rfl⟩ : ∃ l' rest', queue = l' :: rest' := by
      cases queue with
      | nil => simp [hq, withPayload] at hdescs
      | cons l' rest' => exact ⟨l', rest', rfl⟩
    obtain ⟨hd, hrest⟩ : l'.desc = l.desc ∧ rest'.map Launch.desc = rest.map Launch.desc := by
      simpa [hq, withPayload] using hdescs
    refine ⟨_, stepOn_of_host hb hp hw rfl, ?_, ?_, ?_⟩
    · rw [hd]
      exact ⟨Memory.ofBytes cfg l'.payload, [], ch, rest',
        acceptDescriptor_withPayload (tr := tr) l.desc (hostSends l rest s)⟩
    · rw [acceptDescriptor_trace, acceptDescriptor_trace]
    · rw [acceptDescriptor_hostQueue, acceptDescriptor_hostQueue]
      exact hrest
  · obtain ⟨q', hq'⟩ := exists_request_of_long hi'.position hi'.payload (hlong.bound hs) hs
    refine ⟨_, stepOn_of_timingMux hs hb hq', ⟨_, _, _, _, rfl⟩, ?_, hdescs⟩
    have hkind : requestModulated q' = requestModulated q :=
      (requestModulated_of_timingMux hq').trans (requestModulated_of_timingMux hq).symm
    simp only [issue_trace, List.map_append, hkinds, List.map_cons, List.map_nil, hkind]
  · have hs := running_of_completeCurrent hc
    obtain ⟨q', -, hd', -⟩ := hi'.flight hb
    obtain ⟨ch', e⟩ := complete_withPayload (m := m) (tr := tr) (ch := ch) (queue := queue) s
    have hc' : completeCurrent (withPayload m tr ch queue s) =
        .next (withPayload m tr ch' queue (complete nextPosition s)) := by
      rw [completeCurrent_eq (s := withPayload m tr ch queue s) hs, e]
    obtain rfl := Host.Outcome.next.inj ((completeCurrent_eq hs).symm.trans hc)
    refine ⟨_, (stepOn_of_flight (s := withPayload m tr ch queue s) hb hd').trans hc', ⟨_, _, _, _, rfl⟩, ?_, ?_⟩
    · rw [← completeCurrent_trace hc] at hkinds
      exact hkinds
    · rw [← completeCurrent_hostQueue hc] at hdescs
      exact hdescs

/-- The same of a run. -/
theorem stepsOn_twin {n : Nat} (h : PayloadTwin s s') (hi : Inv s) (hi' : Inv s') (hlong : Supplied s')
    (hrun : stepsOn cfg n s t) : ∃ t', stepsOn cfg n s' t' ∧ PayloadTwin t t' := by
  induction n generalizing s s' with
  | zero => exact ⟨s', rfl, hrun ▸ h⟩
  | succ n ih =>
    obtain ⟨u, hsu, hut⟩ := hrun
    obtain ⟨u', hsu', hu⟩ := stepOn_twin h hi hi' hlong hsu
    obtain ⟨t', hut', ht⟩ := ih hu (stepOn_keeps_inv hi hsu) (stepOn_keeps_inv hi' hsu')
      (stepOn_keeps_supplied hlong hsu') hut
    exact ⟨t', ⟨u', hsu', hut'⟩, ht⟩

/-- Giving an idle machine other launches to send keeps its invariant. -/
theorem Inv.with_hostQueue (hi : Inv s) (hp : s.phase = .idle) (queue : List (Launch cfg)) :
    Inv { s with hostQueue := queue } :=
  .of_idle hp (hi.position.idle hp) (hi.waiting.trans (busy_of_idle hp)) (hi.noFlight (hi.position.idle hp)) hi.payload

/-- Settles O40: the two runs start as twins and stay so. -/
theorem phasesIndependentOfPayload : Obligations.PhasesIndependentOfPayload := by
  intro n s t d p p' hi hp _ hlong' hrun
  have htwin : PayloadTwin { s.toMachineState with hostQueue := [⟨d, p⟩] } { s.toMachineState with hostQueue := [⟨d, p'⟩] } :=
    ⟨⟨s.payload, s.trace, s.drvChan, [⟨d, p'⟩], rfl⟩, rfl, rfl⟩
  have hsupplied : Supplied { s.toMachineState with hostQueue := [⟨d, p'⟩] } :=
    ⟨fun hs => absurd hp hs, by simpa using hlong'⟩
  obtain ⟨t', hrun', ⟨m, tr, ch, queue, rfl⟩, hkinds, -⟩ :=
    stepsOn_twin htwin (hi.with_hostQueue hp _) (hi.with_hostQueue hp _) hsupplied ((stepsTo_iff _ _ _).mp hrun)
  exact ⟨⟨withPayload m tr ch queue t.toMachineState⟩, (stepsTo_iff _ _ _).mpr hrun', rfl, rfl, rfl, rfl, rfl, rfl, rfl, hkinds⟩

end Sys2Proof.Machine
end

section
/-! PROOF. The record of a run (00_scope.md R10): no step reads it, and only issue steps and the head of a `TRANSMIT` write the
trace. -/

namespace Sys2Proof.Machine

variable {cfg : Config} {s t : MachineState cfg}

/-- The state with another trace and other responses recorded. -/
def setRecord (l : List (Request cfg)) (r : List Cause) (s : MachineState cfg) : MachineState cfg :=
  { s with trace := l, responses := r }

/-- With another record the update does the same, but for the record. -/
def RecordBlind (f : MachineState cfg → MachineState cfg) : Prop :=
  ∀ l r s, ∃ l' r', f (setRecord l r s) = setRecord l' r' (f s)

theorem acceptDescriptor_recordBlind (d : Descriptor cfg) : RecordBlind (acceptDescriptor cfg d) := by
  intro l r s
  simp only [acceptDescriptor, checkAndStart, latch_ops]
  cases legalDescriptor d with
  | false => exact ⟨[], r ++ [.cmdIllegal], rfl⟩
  | true =>
    cases configFault cfg d.operands with
    | none => exact ⟨[], r, rfl⟩
    | some c => exact ⟨[], r ++ [c], rfl⟩

theorem nextPosition_recordBlind : RecordBlind (nextPosition (cfg := cfg)) := by
  intro l r s
  rw [nextPosition_eq_moveTo, nextPosition_eq_moveTo s]
  show ∃ l' r', moveTo (nextPlace s.ops s.phase s.iter s.bitidx) _ = _
  cases nextPlace s.ops s.phase s.iter s.bitidx with
  | none => exact ⟨l, r ++ [.none], rfl⟩
  | some place => exact ⟨l, r, rfl⟩

theorem complete_recordBlind {nxt : MachineState cfg → MachineState cfg} (hn : RecordBlind nxt) :
    RecordBlind (complete nxt) := by
  intro l r s
  cases ha : s.drvAnswers with
  | nil => exact ⟨l, r, by rw [complete_of_silent ha, complete_of_silent (s := setRecord l r s) ha]⟩
  | cons a rest =>
    cases a with
    | ok =>
      obtain ⟨l', r', e⟩ := hn l r (takeAnswer rest s)
      exact ⟨l', r', by rw [complete_of_ok ha, complete_of_ok (s := setRecord l r s) ha]; exact e⟩
    | fault =>
      exact ⟨l, r ++ [.drvFault], by rw [complete_of_fault ha, complete_of_fault (s := setRecord l r s) ha]; rfl⟩

/-- A step with another record is the same step, but for the record. -/
theorem stepOn_setRecord (l : List (Request cfg)) (r : List Cause) (h : stepOn cfg s = .next t) :
    ∃ l' r', stepOn cfg (setRecord l r s) = .next (setRecord l' r' t) := by
  obtain ⟨hn, rfl⟩ | ⟨launch, rest, hb, hp, hw, hq, rfl⟩ | ⟨q, hb, hs, hq, rfl⟩ | ⟨q, hb, hd, hc⟩ := stepOn_cases h
  · exact ⟨l, r, stepOn_of_nobody hn⟩
  · obtain ⟨l', r', e⟩ := acceptDescriptor_recordBlind launch.desc l r (hostSends launch rest s)
    exact ⟨l', r', (stepOn_of_host (s := setRecord l r s) hb hp hw hq).trans (congrArg _ e)⟩
  · exact ⟨l ++ [q], r, stepOn_of_timingMux (s := setRecord l r s) hs hb hq⟩
  · have hs := running_of_completeCurrent hc
    obtain rfl := Host.Outcome.next.inj ((completeCurrent_eq hs).symm.trans hc)
    obtain ⟨l', r', e⟩ := complete_recordBlind nextPosition_recordBlind l r s
    refine ⟨l', r', ?_⟩
    rw [stepOn_of_flight (s := setRecord l r s) hb hd, completeCurrent_eq (s := setRecord l r s) hs, e]

/-- Settles O28: the step of the default platform, on the fixed names. -/
theorem recordNeverRead : Obligations.RecordNeverRead := by
  intro s t l r h
  obtain ⟨l', r', e⟩ := stepOn_setRecord l r ((step_eq_next_iff s t).mp h)
  exact ⟨l', r', (step_eq_next_iff _ _).mpr e⟩

/-- Settles O29: by what one step can do. -/
theorem traceGrowsByIssueOnly : Obligations.TraceGrowsByIssueOnly := by
  rintro s ⟨t⟩ h
  obtain ⟨-, rfl⟩ | ⟨l, rest, -, hp, -, hq, rfl⟩ | ⟨q, hb, hs, -, rfl⟩ | ⟨q, -, -, hc⟩ :=
    stepOn_cases ((step_eq_next_iff s ⟨t⟩).mp h)
  · exact .inl rfl
  · refine .inr (.inr ⟨hp, acceptDescriptor_trace _ _, ?_⟩)
    simp [acceptDescriptor_hostQueue, hq]
  · exact .inr (.inl ⟨q, hs, hb, rfl, rfl, rfl, rfl⟩)
  · exact .inl (completeCurrent_trace hc)

end Sys2Proof.Machine
end

section
/-! PROOF. The formats (30_encoding.md R71, R73, R74, R77): decoding and encoding are inverse to each other, and the decoder
selects by the operation table's match and mask. -/

namespace Sys2Proof.Machine

/-- Settles O1: the words of a descriptor and of a request give the record back. -/
theorem decodeEncodeWellFormed : Obligations.DecodeEncodeWellFormed := by
  intro i hi
  cases i with
  | transmit d =>
    obtain ⟨hop, hres⟩ : d.op = opTransmit ∧ d.reserved = 0#15 := by simpa [Instr.wellFormed] using hi
    simp [encode, decode, decodeCmd, descriptorOf_descriptorWords, hop, hres]
  | headerMark => exact decode_phase_headerMark
  | headerSpace => exact decode_phase_headerSpace
  | bitMark => exact decode_phase_bitMark
  | bitSpace => exact decode_phase_bitSpace
  | gap => exact decode_phase_gap
  | mark d f c => exact decode_requestWords (.mark d f c)
  | space d => exact decode_requestWords (.space d)

/-- The first word of a descriptor is its four fields (R71). -/
theorem first_word_eq (w : Word) :
    w.extractLsb' 24 8 ++ w.extractLsb' 9 15 ++ w.extractLsb' 8 1 ++ w.extractLsb' 0 8 = w := by
  rw [BitVec.extractLsb'_append_extractLsb'_eq_extractLsb' (show 24 = 9 + 15 from rfl),
    BitVec.extractLsb'_append_extractLsb'_eq_extractLsb' (show 9 = 8 + 1 from rfl),
    BitVec.extractLsb'_append_extractLsb'_eq_extractLsb' (show 8 = 0 + 8 from rfl)]
  exact BitVec.extractLsb'_eq_self

/-- The second word of a descriptor is its two fields (R71). -/
theorem second_word_eq (w : Word) : w.extractLsb' 16 16 ++ w.extractLsb' 0 16 = w := by
  rw [BitVec.extractLsb'_append_extractLsb'_eq_extractLsb' (show 16 = 0 + 16 from rfl)]
  exact BitVec.extractLsb'_eq_self

/-- The first word of a request is its kind, its reserved field and its duty (R74). -/
theorem request_word_eq (w : Word) : w.extractLsb' 31 1 ++ w.extractLsb' 8 23 ++ w.extractLsb' 0 8 = w := by
  rw [BitVec.extractLsb'_append_extractLsb'_eq_extractLsb' (show 31 = 8 + 23 from rfl),
    BitVec.extractLsb'_append_extractLsb'_eq_extractLsb' (show 8 = 0 + 8 from rfl)]
  exact BitVec.extractLsb'_eq_self

/-- Every bit of nine words is in a field of the descriptor (R71, R72). -/
theorem descriptorWords_descriptorOf (m : CmdMsg) : descriptorWords (descriptorOf m) = m := by
  simp only [descriptorWords, descriptorOf, first_word_eq, second_word_eq]

/-- Format `CMD` decodes to `TRANSMIT` of the words' descriptor, if that is legal, and to nothing else (R77, R78). -/
theorem decodeCmd_eq_ok_iff (m : CmdMsg) (i : Instr) : decodeCmd m = .ok i ↔
    i = .transmit (descriptorOf m) ∧ (descriptorOf m).op = opTransmit ∧ (descriptorOf m).reserved = 0#15 := by
  simp only [decodeCmd]
  split_ifs with hop hres
  · exact ⟨nofun, fun ⟨_, h, _⟩ => absurd h hop⟩
  · exact ⟨nofun, fun ⟨_, _, h⟩ => absurd h hres⟩
  · rw [Except.ok.injEq, eq_comm]
    exact ⟨fun e => ⟨e, not_not.mp hop, not_not.mp hres⟩, fun ⟨e, _⟩ => e⟩

/-- Format `DRVREQ` decodes to `MARK` on its pattern, to `SPACE` on its own, and to nothing else (R74, R77). -/
theorem decodeDrv_eq_ok_iff (m : DrvMsg) (i : Instr) : decodeDrv m = .ok i ↔
    (i = .mark m.q1 m.q2 (m.q0.extractLsb' 0 8) ∧ m.q0.extractLsb' 31 1 = 1#1 ∧ m.q0.extractLsb' 8 23 = 0#23) ∨
      (i = .space m.q1 ∧ m.q0 = 0#32 ∧ m.q2 = 0#32) := by
  simp only [decodeDrv]
  split_ifs with hmark hspace
  · rw [Except.ok.injEq, eq_comm]
    refine ⟨fun e => .inl ⟨e, hmark⟩, ?_⟩
    rintro (⟨e, -⟩ | ⟨-, h0, -⟩)
    · exact e
    · simp [h0] at hmark
  · rw [Except.ok.injEq, eq_comm]
    refine ⟨fun e => .inr ⟨e, hspace⟩, ?_⟩
    rintro (⟨-, h⟩ | ⟨e, -⟩)
    · exact absurd h hmark
    · exact e
  · refine ⟨nofun, ?_⟩
    rintro (⟨-, h⟩ | ⟨-, h⟩)
    · exact absurd h hmark
    · exact absurd h hspace

/-- The phase codes that select an operation are those of the five operations (R73). -/
theorem decodePhase_ok {c : BitVec 3} {i : Instr} (h : decodePhase c = .ok i) :
    i.wellFormed = true ∧ encode i = .phase c := by
  unfold decodePhase at h
  split at h <;> cases h
  all_goals
    rename_i hc
    exact ⟨rfl, congrArg Message.phase (BitVec.eq_of_toNat_eq hc.symm)⟩

/-- Settles O2: format by format. -/
theorem encodeDecodedMessage : Obligations.EncodeDecodedMessage := by
  intro m i h
  cases m with
  | cmd m =>
    obtain ⟨rfl, hop, hres⟩ := (decodeCmd_eq_ok_iff m i).mp h
    exact ⟨by simp [Instr.wellFormed, hop, hres], congrArg Message.cmd (descriptorWords_descriptorOf m)⟩
  | phase c => exact decodePhase_ok h
  | drv m =>
    obtain ⟨q0, q1, q2⟩ := m
    obtain ⟨rfl, hkind, hres⟩ | ⟨rfl, rfl, rfl⟩ := (decodeDrv_eq_ok_iff _ i).mp h
    · refine ⟨rfl, ?_⟩
      simp only [encode, requestWords]
      rw [← hkind, ← hres, request_word_eq]
    · exact ⟨rfl, rfl⟩

/-- Settles O3: the decoder, run on the words. -/
theorem decodeWrittenWords : Obligations.DecodeWrittenWords := by
  unfold Obligations.DecodeWrittenWords
  decide

/-- The table's match and mask on a descriptor's first word ask for the operation code and a zero reserved field (R77). -/
theorem transmit_mask_iff (w : Word) : w &&& 0xFFFFFE00#32 = 0x01000000#32 ↔
    w.extractLsb' 24 8 = opTransmit ∧ w.extractLsb' 9 15 = 0#15 := by
  have hop : (w &&& 0xFFFFFE00#32).extractLsb' 24 8 = w.extractLsb' 24 8 := by
    rw [BitVec.extractLsb'_and]
    exact BitVec.and_allOnes
  have hres : (w &&& 0xFFFFFE00#32).extractLsb' 9 15 = w.extractLsb' 9 15 := by
    rw [BitVec.extractLsb'_and]
    exact BitVec.and_allOnes
  have horder : (w &&& 0xFFFFFE00#32).extractLsb' 8 1 = 0#1 := by
    rw [BitVec.extractLsb'_and]
    exact BitVec.and_zero
  have hduty : (w &&& 0xFFFFFE00#32).extractLsb' 0 8 = 0#8 := by
    rw [BitVec.extractLsb'_and]
    exact BitVec.and_zero
  constructor
  · intro h
    rw [← hop, ← hres, h]
    decide
  · rintro ⟨h1, h2⟩
    rw [← first_word_eq (w &&& 0xFFFFFE00#32), hop, hres, horder, hduty, h1, h2]
    decide

/-- The table's match and mask on a request's first word ask for the kind bit and a zero reserved field (R77). -/
theorem mark_mask_iff (w : Word) : w &&& 0xFFFFFF00#32 = 0x80000000#32 ↔
    w.extractLsb' 31 1 = 1#1 ∧ w.extractLsb' 8 23 = 0#23 := by
  have hkind : (w &&& 0xFFFFFF00#32).extractLsb' 31 1 = w.extractLsb' 31 1 := by
    rw [BitVec.extractLsb'_and]
    exact BitVec.and_allOnes
  have hres : (w &&& 0xFFFFFF00#32).extractLsb' 8 23 = w.extractLsb' 8 23 := by
    rw [BitVec.extractLsb'_and]
    exact BitVec.and_allOnes
  have hduty : (w &&& 0xFFFFFF00#32).extractLsb' 0 8 = 0#8 := by
    rw [BitVec.extractLsb'_and]
    exact BitVec.and_zero
  constructor
  · intro h
    rw [← hkind, ← hres, h]
    decide
  · rintro ⟨h1, h2⟩
    rw [← request_word_eq (w &&& 0xFFFFFF00#32), hkind, hres, hduty, h1, h2]
    decide

/-- Settles O4: the decoder's conditions are the table's, and for `SPACE` the zero third word besides. -/
theorem firstWordMatchesOperationTable : Obligations.FirstWordMatchesOperationTable := by
  refine ⟨fun m => ?_, fun m => ?_, fun m => ?_⟩
  · rw [transmit_mask_iff]
    refine ⟨fun ⟨d, h⟩ => ?_, fun h => ⟨_, (decodeCmd_eq_ok_iff m _).mpr ⟨rfl, h⟩⟩⟩
    obtain ⟨-, hlegal⟩ := (decodeCmd_eq_ok_iff m _).mp h
    exact hlegal
  · rw [mark_mask_iff]
    refine ⟨fun ⟨d, f, c, h⟩ => ?_, fun h => ⟨_, _, _, (decodeDrv_eq_ok_iff m _).mpr (.inl ⟨rfl, h⟩)⟩⟩
    obtain ⟨-, hmark⟩ | ⟨e, -⟩ := (decodeDrv_eq_ok_iff m _).mp h
    · exact hmark
    · cases e
  · rw [show m.q0 &&& 0xFFFFFFFF#32 = m.q0 from BitVec.and_allOnes]
    refine ⟨fun ⟨d, h⟩ => ?_, fun h => ⟨_, (decodeDrv_eq_ok_iff m _).mpr (.inr ⟨rfl, h⟩)⟩⟩
    obtain ⟨e, -⟩ | ⟨-, hspace⟩ := (decodeDrv_eq_ok_iff m _).mp h
    · cases e
    · exact hspace

/-- Settles O48: the launch is the record with the arguments in its fields, and its words are a legal descriptor's. -/
theorem hostCallIsOneTransmit : Obligations.HostCallIsOneTransmit := by
  have hcode (o : BitOrder) : o.code = if o = .msb then 0#1 else 1#1 := by cases o <;> rfl
  refine ⟨fun p bs n k o => ?_, fun cfg p bs n k => ⟨fun o => ?_, rfl, rfl⟩⟩
  · rw [decode_words_eq_transmit_iff, ← hcode]
    exact ⟨rfl, rfl, rfl⟩
  · rw [← hcode]
    rfl

end Sys2Proof.Machine
end

section
/-! PROOF. The train in numbers and read back (41_sequencer_phases.md section 8): its counts, its duration by the source's formula,
and the payload decoded from one iteration. -/

namespace Sys2Proof.Machine

variable {cfg : Config} {r : OperandRegs cfg} {m : Memory}

@[simp] theorem requestModulated_mark (d : BitVec cfg.DW) (f : BitVec cfg.FW) (c : BitVec Config.DUTYW) :
    requestModulated (.mark d f c : Request cfg) = true := rfl

@[simp] theorem requestModulated_space (d : BitVec cfg.DW) : requestModulated (.space d : Request cfg) = false := rfl

/-- Every bit has one mark (R126). -/
theorem bitPairs_marks (r : OperandRegs cfg) (bits : List Bool) :
    ((bits.flatMap (bitPair r)).filter requestModulated).length = bits.length := by
  induction bits with
  | nil => rfl
  | cons b bits ih => simp [bitPair, List.filter_cons, ih]

/-- Every bit has one space (R126). -/
theorem bitPairs_spaces (r : OperandRegs cfg) (bits : List Bool) :
    ((bits.flatMap (bitPair r)).filter fun q => !requestModulated q).length = bits.length := by
  induction bits with
  | nil => rfl
  | cons b bits ih => simp [bitPair, ih]

/-- Settles O41: the header, the pairs of the bits and the gap are counted apart. -/
theorem trainCounts : Obligations.TrainCounts := by
  intro cfg r m hm
  refine ⟨iteration_length hm, ?_, ?_, train_length hm⟩
  · simp only [iteration, List.filter_append, List.length_append, bitPairs_marks, commandBits_length hm]
    simp [List.filter_cons]
  · simp only [iteration, List.filter_append, List.length_append, bitPairs_spaces, commandBits_length hm]
    simp
    omega

theorem totalDuration_append (l l' : List (Request cfg)) :
    totalDuration (l ++ l') = totalDuration l + totalDuration l' := by
  induction l with
  | nil => simp [totalDuration]
  | cons q l ih => simp [totalDuration, ih, Nat.add_assoc]

theorem totalDuration_replicate (n : Nat) (l : List (Request cfg)) :
    totalDuration (List.replicate n l).flatten = n * totalDuration l := by
  induction n with
  | zero => simp [totalDuration]
  | succ n ih =>
    rw [List.replicate_succ, List.flatten_cons, totalDuration_append, ih]
    ring

/-- A bit lasts its mark and the space of its value (R129). -/
theorem totalDuration_bitPairs (r : OperandRegs cfg) (bits : List Bool) :
    totalDuration (bits.flatMap (bitPair r)) =
      bits.length * r.bm.toNat + bits.count true * r.os.toNat + bits.count false * r.zs.toNat := by
  induction bits with
  | nil => simp [totalDuration]
  | cons b bits ih =>
    rw [List.flatMap_cons, totalDuration_append, ih]
    cases b <;> simp [bitPair, totalDuration, requestDuration] <;> ring

/-- The zeros of the bit sequence are the bits that are not ones. -/
theorem commandBits_count_false (hm : r.nbytes.toNat ≤ m.length) :
    (commandBits r m).count false = 8 * r.nbytes.toNat - (commandBits r m).count true := by
  have h := List.count_true_add_count_false (commandBits r m)
  rw [commandBits_length hm] at h
  omega

/-- Settles O42: one iteration's duration by its parts, as many times as there are iterations. -/
theorem trainDurationFormula : Obligations.TrainDurationFormula := by
  intro cfg r m hm
  rw [train, totalDuration_replicate, iteration, totalDuration_append, totalDuration_append, totalDuration_bitPairs,
    commandBits_length hm, commandBits_count_false hm]
  simp only [totalDuration, requestDuration]
  ring

theorem ofBool_getLsbD_eq_extractLsb' {w : Nat} (x : BitVec w) (k : Nat) :
    BitVec.ofBool (x.getLsbD k) = x.extractLsb' k 1 := by
  apply BitVec.eq_of_getLsbD_eq
  intro i hi
  obtain rfl : i = 0 := by omega
  simp

/-- Eight bits side by side, the highest first, are their byte. -/
theorem packByte_getLsbD (b : Byte) : packByte 0#1 (b.getLsbD 7) (b.getLsbD 6) (b.getLsbD 5) (b.getLsbD 4)
    (b.getLsbD 3) (b.getLsbD 2) (b.getLsbD 1) (b.getLsbD 0) = b := by
  simp only [packByte, if_true, ofBool_getLsbD_eq_extractLsb',
    BitVec.extractLsb'_append_extractLsb'_eq_extractLsb' (show 7 = 6 + 1 from rfl),
    BitVec.extractLsb'_append_extractLsb'_eq_extractLsb' (show 6 = 5 + 1 from rfl),
    BitVec.extractLsb'_append_extractLsb'_eq_extractLsb' (show 5 = 4 + 1 from rfl),
    BitVec.extractLsb'_append_extractLsb'_eq_extractLsb' (show 4 = 3 + 1 from rfl),
    BitVec.extractLsb'_append_extractLsb'_eq_extractLsb' (show 3 = 2 + 1 from rfl),
    BitVec.extractLsb'_append_extractLsb'_eq_extractLsb' (show 2 = 1 + 1 from rfl),
    BitVec.extractLsb'_append_extractLsb'_eq_extractLsb' (show 1 = 0 + 1 from rfl)]
  exact BitVec.extractLsb'_eq_self

/-- The bits of a byte in their order of emission, taken as a byte in that order, are the byte (R131). -/
theorem packBytes_byteBits_append (order : BitVec 1) (b : Byte) (rest : List Bool) :
    packBytes order (byteBits order b ++ rest) = b :: packBytes order rest := by
  obtain rfl | rfl : order = 0#1 ∨ order = 1#1 := by revert order; decide
  · exact congrArg (· :: packBytes 0#1 rest) (packByte_getLsbD b)
  · exact congrArg (· :: packBytes 1#1 rest) (packByte_getLsbD b)

theorem packBytes_flatMap (order : BitVec 1) (bs : List Byte) : packBytes order (bs.flatMap (byteBits order)) = bs := by
  induction bs with
  | nil => rfl
  | cons b bs ih => rw [List.flatMap_cons, packBytes_byteBits_append, ih]

/-- With different spaces every pair shows its bit (R131). -/
theorem readPairs_flatMap (h : r.os ≠ r.zs) (bits : List Bool) : readPairs r.os (bits.flatMap (bitPair r)) = bits := by
  induction bits with
  | nil => rfl
  | cons b bits ih =>
    have hb : (requestDuration (.space (if b = true then r.os else r.zs) : Request cfg) == r.os) = b := by
      cases b <;> simp [requestDuration, Ne.symm h]
    exact congrArg₂ List.cons hb ih

/-- Without its header and its gap an iteration is the pairs of its bits (R126). -/
theorem iteration_pairs (r : OperandRegs cfg) (m : Memory) :
    ((iteration r m).drop 2).dropLast = (commandBits r m).flatMap (bitPair r) := by
  have e : (iteration r m).drop 2 = (commandBits r m).flatMap (bitPair r) ++ [.space r.gap] := rfl
  rw [e, List.dropLast_concat]

/-- Settles O43: pairs to bits, and bits to bytes. -/
theorem decodingTrainGivesPayload : Obligations.DecodingTrainGivesPayload := by
  intro cfg r m h
  rw [decodeIteration, iteration_pairs, readPairs_flatMap h, commandBits, packBytes_flatMap, consumedBytes]

end Sys2Proof.Machine
end

section
/-! PROOF. What stands before and outside of a run: the bound buffer (20_memory.md R50, R59) and reset (10_state.md R37). -/

namespace Sys2Proof.Machine

variable {cfg : Config}

/-- The bound buffer's byte is the buffer's own at every index the port reaches, and no byte beyond (R59). -/
theorem read_ofBytes (bs : List Byte) (a : Nat) :
    Memory.read (Memory.ofBytes cfg bs) a = if a < 2 ^ cfg.NW then bs[a]? else none := by
  rw [Memory.ofBytes, read_cellsFrom, if_pos (Nat.zero_le a), Nat.sub_zero, List.getElem?_take]

/-- Settles O47: a buffer within the bound has no byte that the port does not reach. -/
theorem boundBufferReads : Obligations.BoundBufferReads := by
  intro cfg bs a
  rw [read_ofBytes]
  refine ⟨wf_ofBytes bs, fun hlen => ?_, fun ha => if_pos ha, fun ha => if_neg (Nat.not_lt.mpr ha)⟩
  split_ifs with ha
  · rfl
  · exact (List.getElem?_eq_none (by omega)).symm

/-- Settles O46: each is a field of the reset state as it stands. -/
theorem resetLeavesIdle : Obligations.ResetLeavesIdle := ⟨rfl, rfl, rfl, rfl, rfl, rfl⟩

end Sys2Proof.Machine
end

section
/-! PROOF. What a step of the fixed names is (00_scope.md R9): the operation its message selects, with the answers to a descriptor
that starts no call (40_transmit_command.md R103, R107) and when `TRANSMIT` is enabled (R101). -/

namespace Sys2Proof.Machine

variable {cfg : Config}

/-- `TRANSMIT` is refused by name where it is not enabled (R101). -/
theorem exec_transmit_of_not_enabled {d : Descriptor Config.default} {s : State}
    (h : ¬ (s.phase = .idle ∧ s.hostWait = false)) : exec (.transmit d) s = .refused .transmitNotEnabled :=
  congrArg Result.ofDefault (if_neg h)

/-- While a call runs no step takes a launch off the host's list (R101). -/
theorem stepOn_hostQueue_of_running {s t : MachineState cfg} (hs : s.phase ≠ .idle) (h : stepOn cfg s = .next t) :
    t.hostQueue = s.hostQueue := by
  obtain ⟨-, rfl⟩ | ⟨l, rest, -, hp, -⟩ | ⟨q, -, -, -, rfl⟩ | ⟨q, -, -, hc⟩ := stepOn_cases h
  · rfl
  · exact absurd hp hs
  · rfl
  · exact completeCurrent_hostQueue hc

/-- Settles O9: enabled it answers a next state, not enabled a refusal, and a running call's step leaves the list. -/
theorem transmitEnabledExactlyWhenIdle : Obligations.TransmitEnabledExactlyWhenIdle := by
  refine ⟨fun d s => ⟨fun ⟨t, h⟩ => ?_, fun ⟨hp, hw⟩ => ⟨_, exec_transmit_of_enabled hp hw⟩⟩,
    fun d s => exec_transmit_of_not_enabled,
    fun s t hs h => stepOn_hostQueue_of_running hs ((step_eq_next_iff s t).mp h)⟩
  by_contra hne
  cases (exec_transmit_of_not_enabled hne).symm.trans h

/-- Settles O5: by whose step it is. -/
theorem stepRunsDecodedInstruction : Obligations.StepRunsDecodedInstruction := by
  refine ⟨fun s i hb hs hi => ?_, fun s q i hb hd hi => ?_, fun s l rest i hb hp hw hq hi => ?_⟩
  · rw [step, turn_of_running hs hb]
    simp only [hi]
  · have hturn : turn s.toMachineState = .driver q := by simp [turn, hb, hd]
    rw [step, hturn]
    simp only [hi]
  · rw [step, turn_of_host hb hp hw hq]
    obtain ⟨rfl, -⟩ := (decodeCmd_eq_ok_iff l.words i).mp hi
    rfl

/-- An abort in `IDLE` writes the code and answers it, and nothing else (60_exceptions.md R156). -/
theorem raise_of_idle {c : Cause} {s : MachineState cfg} (hp : s.phase = .idle) (hb : s.pend = false)
    (hw : s.hostWait = false) : raise c s = { s with cause := c, responses := s.responses ++ [c] } := by
  obtain ⟨ops, phase, iter, bitidx, pend, cause, payload, hostWait⟩ := s
  obtain rfl : phase = .idle := hp
  obtain rfl : pend = false := hb
  obtain rfl : hostWait = false := hw
  rfl

/-- Words that decode to nothing are those of an illegal descriptor (R78). -/
theorem illegal_of_decode_error {l : Launch Config.default} {e : DecodeError} (h : decode (.cmd l.words) = .error e) :
    l.desc.op ≠ opTransmit ∨ l.desc.reserved ≠ 0#15 := by
  by_contra hlegal
  rw [not_or, not_not, not_not] at hlegal
  cases h.symm.trans ((decode_words_eq_transmit_iff l l.desc).mpr ⟨rfl, hlegal⟩)

/-- Settles O6: the abort of an illegal descriptor, with the buffer bound and the trace empty. -/
theorem stepAnswersIllegalDescriptor : Obligations.StepAnswersIllegalDescriptor := by
  intro s l rest e hb hp hw hq hdec
  refine (step_eq_next_iff _ _).mpr ?_
  rw [stepOn_of_host hb hp hw hq, acceptDescriptor_of_illegal (illegal_of_decode_error hdec),
    raise_of_idle (s := clearTrace (hostSends l rest s.toMachineState)) hp hb hw]
  rfl

/-- A check that fails is answered with its code, the operands latched and nothing issued (R103). -/
theorem stepOn_of_configFault {s : MachineState cfg} {l : Launch cfg} {rest : List (Launch cfg)} {c : Cause}
    (hb : s.pend = false) (hp : s.phase = .idle) (hw : s.hostWait = false) (hq : s.hostQueue = l :: rest)
    (hop : l.desc.op = opTransmit) (hres : l.desc.reserved = 0#15) (hc : configFault cfg l.desc.operands = some c) :
    stepOn cfg s = .next { s with payload := Memory.ofBytes cfg l.payload, hostQueue := rest, ops := l.desc.operands,
                                  trace := [], cause := c, responses := s.responses ++ [c] } := by
  have hcheck : checkAndStart cfg (latch l.desc (clearTrace (hostSends l rest s))) =
      raise c (latch l.desc (clearTrace (hostSends l rest s))) := by
    simp only [checkAndStart, latch_ops, hc]
  rw [stepOn_of_host hb hp hw hq, acceptDescriptor_of_legal hop hres, hcheck,
    raise_of_idle (s := latch l.desc (clearTrace (hostSends l rest s))) hp hb hw]
  rfl

/-- Settles O55: in each case the check's first failure is the code. -/
theorem platformAnswersConfigurationFaults : Obligations.PlatformAnswersConfigurationFaults := by
  intro cfg s l rest c hb hp hw hq hop hres hcases
  refine stepOn_of_configFault hb hp hw hq hop hres ?_
  simp only [configFault, dutyMax_lt_iff]
  obtain ⟨hf, rfl⟩ | ⟨hf, hd, rfl⟩ | ⟨hf, hd, ht, rfl⟩ := hcases
  · rw [if_pos hf]
  · rw [if_neg (by simp [hf]), if_pos hd]
  · rw [if_neg (by simp [hf]), if_neg (Nat.not_lt.mpr hd), if_pos ht]

end Sys2Proof.Machine
end

section
/-! PROOF. The two steps of a phase at every width (41_sequencer_phases.md sections 4 and 5): the counters as natural numbers. -/

namespace Sys2Proof.Machine

variable {cfg : Config} {s t : MachineState cfg}

/-- The operands hold no bit exactly when `NBYTES` is 0 as a number. -/
theorem headerSpaceNext_eq (s : MachineState cfg) :
    headerSpaceNext s = { s with phase := if s.ops.nbytes.toNat = 0 then .gap else .bitMark } := by
  have hn : s.ops.nbytes = 0 ↔ s.ops.nbytes.toNat = 0 := by simp [← BitVec.toNat_inj]
  simp only [headerSpaceNext, hn]
  split_ifs <;> rfl

/-- The bit index goes on below `TOTAL` by natural-number arithmetic (R119). -/
theorem bitSpaceNext_eq (hi : s.bitidx.toNat < 8 * s.ops.nbytes.toNat) : bitSpaceNext s =
    if s.bitidx.toNat + 1 < 8 * s.ops.nbytes.toNat then { s with bitidx := s.bitidx + 1, phase := .bitMark }
    else { s with phase := .gap } := by
  simp only [bitSpaceNext, BitVec.lt_def, bitidx_succ_toNat hi, totalBits_toNat]

/-- The iteration number is compared with `REPEATS` as a number (R120). -/
theorem gapNext_eq (s : MachineState cfg) : gapNext s =
    if s.iter.toNat < s.ops.repeats.toNat then { s with iter := s.iter + 1, bitidx := 0, phase := .headerMark }
    else respond .none { s with phase := .idle } := rfl

/-- Settles O56: the issue step of the mux's request, and the completion step phase by phase. -/
theorem platformIssueAndCompletion : Obligations.PlatformIssueAndCompletion := by
  intro cfg s hi
  refine ⟨fun q hb hq => stepOn_of_timingMux (fun hp => by simp [timingMux, hp] at hq) hb hq, fun rest hb ha => ?_⟩
  have hs : s.phase ≠ .idle := fun hp => by simp [hi.position.idle hp] at hb
  obtain ⟨q, -, hd, -⟩ := hi.flight hb
  refine ⟨_, (stepOn_of_flight hb hd).trans (completeCurrent_of_ok hs ha), by simp, by simp, by simp, by simp, by simp,
    by simp, by simp, by simp, fun hp => ?_, fun hp => ?_, fun hp => ?_, fun hp => ?_, fun hp => ?_⟩
  · rw [nextPosition_of_headerMark (s := takeAnswer rest s) hp]
    exact ⟨rfl, rfl, rfl, rfl⟩
  · rw [nextPosition_of_headerSpace (s := takeAnswer rest s) hp, headerSpaceNext_eq]
    exact ⟨rfl, rfl, rfl, rfl⟩
  · rw [nextPosition_of_bitMark (s := takeAnswer rest s) hp]
    exact ⟨rfl, rfl, rfl, rfl⟩
  · have hbit := hi.position.bit (.inr hp)
    have e := (nextPosition_of_bitSpace (s := takeAnswer rest s) hp).trans (bitSpaceNext_eq hbit)
    by_cases hn : s.bitidx.toNat + 1 < 8 * s.ops.nbytes.toNat
    · rw [if_pos hn, e.trans (if_pos hn)]
      exact ⟨⟨rfl, bitidx_succ_toNat hbit⟩, rfl, rfl⟩
    · rw [if_neg hn, e.trans (if_neg hn)]
      exact ⟨⟨rfl, rfl⟩, rfl, rfl⟩
  · have e := (nextPosition_of_gap (s := takeAnswer rest s) hp).trans (gapNext_eq _)
    by_cases hk : s.iter.toNat < s.ops.repeats.toNat
    · rw [if_pos hk, e.trans (if_pos hk)]
      exact ⟨rfl, iter_succ_toNat hk, rfl, rfl⟩
    · rw [if_neg hk, e.trans (if_neg hk)]
      exact ⟨rfl, rfl, rfl, rfl, rfl⟩

/-- What moving on does to the two counters, as numbers. -/
theorem nextPosition_counters (h : PositionInv s) :
    ((nextPosition s).iter = s.iter ∨ (nextPosition s).iter.toNat = s.iter.toNat + 1) ∧
      ((nextPosition s).bitidx = s.bitidx ∨
        (s.phase = .bitSpace ∧ (nextPosition s).bitidx.toNat = s.bitidx.toNat + 1) ∨
        ((nextPosition s).phase = .headerMark ∧ (nextPosition s).bitidx.toNat = 0)) := by
  cases hp : s.phase with
  | idle => rw [nextPosition_of_idle hp]; exact ⟨.inl rfl, .inl rfl⟩
  | headerMark => rw [nextPosition_of_headerMark hp]; exact ⟨.inl rfl, .inl rfl⟩
  | headerSpace => rw [nextPosition_of_headerSpace hp, headerSpaceNext_eq]; exact ⟨.inl rfl, .inl rfl⟩
  | bitMark => rw [nextPosition_of_bitMark hp]; exact ⟨.inl rfl, .inl rfl⟩
  | bitSpace =>
    have hbit := h.bit (.inr hp)
    rw [nextPosition_of_bitSpace hp, bitSpaceNext_eq hbit]
    split_ifs
    · exact ⟨.inl rfl, .inr (.inl ⟨rfl, bitidx_succ_toNat hbit⟩)⟩
    · exact ⟨.inl rfl, .inl rfl⟩
  | gap =>
    rw [nextPosition_of_gap hp, gapNext_eq]
    split_ifs with hk
    · exact ⟨.inr (iter_succ_toNat hk), .inr (.inr ⟨rfl, rfl⟩)⟩
    · exact ⟨.inl rfl, .inl rfl⟩

/-- Settles O57: a start zeroes both counters, and a completion step moves them on. -/
theorem countersNeverWrap : Obligations.CountersNeverWrap := by
  intro cfg s t hi h
  obtain ⟨-, rfl⟩ | ⟨l, rest, -, hp, -, -, rfl⟩ | ⟨q, -, -, -, rfl⟩ | ⟨q, -, -, hc⟩ := stepOn_cases h
  · exact ⟨.inl rfl, .inl rfl⟩
  · obtain ⟨-, e⟩ | ⟨c, -, -, e⟩ | ⟨-, -, e⟩ := acceptDescriptor_cases l.desc (hostSends l rest s) <;> rw [e]
    · exact ⟨.inl rfl, .inl rfl⟩
    · exact ⟨.inl rfl, .inl rfl⟩
    · exact ⟨.inr (.inr ⟨hp, rfl⟩), .inr (.inr ⟨rfl, rfl⟩)⟩
  · exact ⟨.inl rfl, .inl rfl⟩
  · obtain ⟨hs, ⟨-, rfl⟩ | ⟨rest, -, rfl⟩ | ⟨rest, -, rfl⟩⟩ := completeCurrent_outcomes hc
    · exact ⟨.inl rfl, .inl rfl⟩
    · have hpos : PositionInv (takeAnswer rest s) := hi.position.of_same_position rfl rfl rfl rfl fun _ => rfl
      obtain ⟨hiter, hbit⟩ := nextPosition_counters hpos
      exact ⟨hiter.imp_right .inl, hbit⟩
    · exact ⟨.inl rfl, .inl rfl⟩

end Sys2Proof.Machine
end

section
/-! PROOF. The operations one by one (41_sequencer_phases.md R114 to R120, 42_carrier_primitives.md R141 to R143): each phase
operation's issue step, the completion step of the current phase, which is also that of the request in flight, and where an
operation is not enabled. -/

namespace Sys2Proof.Machine

variable {i : Instr} {p : Phase} {s : State} {rest : List Answer}

/-- The operation that a phase's code selects (30_encoding.md R73). -/
def phaseInstr : Phase → Option Instr
  | .idle => none
  | .headerMark => some .headerMark
  | .headerSpace => some .headerSpace
  | .bitMark => some .bitMark
  | .bitSpace => some .bitSpace
  | .gap => some .gap

theorem decode_phase_eq_ok_iff (p : Phase) (i : Instr) : decode (.phase p.code) = .ok i ↔ phaseInstr p = some i := by
  cases p <;> simp [decode, decodePhase, Phase.code, phaseInstr]

/-- A phase operation at the default parameters is that phase's. -/
theorem exec_phaseInstr (hi : phaseInstr p = some i) : exec i s = Result.ofDefault (phaseOp p s.toMachineState) := by
  cases p with
  | idle => cases hi
  | headerMark | headerSpace | bitMark | bitSpace | gap =>
    obtain rfl := Option.some.inj hi
    rfl

/-- The issue step of the current phase's operation (R114). -/
theorem exec_issue {q : Request Config.default} (hi : phaseInstr s.phase = some i) (hb : s.pend = false)
    (hq : timingMux s.toMachineState = some q) : exec i s = .next ⟨issue q s.toMachineState⟩ := by
  have hs : s.phase ≠ .idle := fun hp => by simp [hp, phaseInstr] at hi
  obtain ⟨nxt, e⟩ := phaseOp_eq_phaseOperation hs
  rw [exec_phaseInstr hi, e, hq, phaseOperation_of_request rfl hb]
  rfl

theorem phaseOperation_of_flight {cfg : Config} {req : Option (Request cfg)} {nxt : MachineState cfg → MachineState cfg}
    {s : MachineState cfg} (hp : s.phase = p) (hb : s.pend = true) :
    phaseOperation p req nxt s = .next (complete nxt s) := by
  simp only [phaseOperation, hp, hb, if_true]

/-- With a request in flight the current phase's operation is the completion step (R115). -/
theorem phaseOp_of_flight {cfg : Config} {s : MachineState cfg} (hs : s.phase ≠ .idle) (hb : s.pend = true) :
    phaseOp s.phase s = completeCurrent s := by
  rw [completeCurrent]
  cases hp : s.phase with
  | idle => exact absurd hp hs
  | headerMark => exact phaseOperation_of_flight (req := some (headerMarkReq s.ops)) (nxt := headerMarkNext) hp hb
  | headerSpace => exact phaseOperation_of_flight (req := some (headerSpaceReq s.ops)) (nxt := headerSpaceNext) hp hb
  | bitMark => exact phaseOperation_of_flight (req := some (bitMarkReq s.ops)) (nxt := bitMarkNext) hp hb
  | bitSpace => exact phaseOperation_of_flight (req := currentBitSpaceReq s) (nxt := bitSpaceNext) hp hb
  | gap => exact phaseOperation_of_flight (req := some (gapReq s.ops)) (nxt := gapNext) hp hb

/-- The completion step of the current phase's operation at the default parameters. -/
theorem exec_completes (hi : phaseInstr s.phase = some i) (hb : s.pend = true) :
    exec i s = Result.ofDefault (completeCurrent s.toMachineState) := by
  have hs : s.phase ≠ .idle := fun hp => by simp [hp, phaseInstr] at hi
  rw [exec_phaseInstr hi, phaseOp_of_flight hs hb]

/-- A driver primitive whose request is in flight is the completion step of the current phase (R143). -/
theorem carryOut_of_flight {cfg : Config} {q : Request cfg} {s : MachineState cfg} (hb : s.pend = true)
    (hd : s.drvChan = some q) : carryOut q s = completeCurrent s :=
  if_pos ⟨hb, hd⟩

/-- On `FAULT` the completion step aborts with `DRV_FAULT`, whatever the phase (R157). -/
theorem completion_of_fault (hs : s.phase ≠ .idle) (ha : s.drvAnswers = .fault :: rest) :
    Result.ofDefault (completeCurrent s.toMachineState) =
      .next { s with drvAnswers := rest, drvChan := none, pend := false, phase := .idle, cause := .drvFault,
                     hostWait := false, responses := s.responses ++ [.drvFault] } := by
  rw [completeCurrent_of_fault hs ha]
  rfl

/-- On `OK` the completion step takes the answer and moves on (R115). -/
theorem completion_of_ok (hs : s.phase ≠ .idle) (ha : s.drvAnswers = .ok :: rest) :
    Result.ofDefault (completeCurrent s.toMachineState) = .next ⟨nextPosition (takeAnswer rest s.toMachineState)⟩ := by
  rw [completeCurrent_of_ok hs ha]
  rfl

/-- `HEADER_MARK` is followed by `HEADER_SPACE` (R116). -/
theorem headerMark_completion (hp : s.phase = .headerMark) (ha : s.drvAnswers = .ok :: rest) :
    Result.ofDefault (completeCurrent s.toMachineState) =
      .next { s with drvAnswers := rest, drvChan := none, pend := false, phase := .headerSpace } := by
  rw [completion_of_ok (by simp [hp]) ha, nextPosition_of_headerMark (s := takeAnswer rest s.toMachineState) hp]
  rfl

/-- `HEADER_SPACE` is followed by `BIT_MARK`, or by `GAP` with no bits (R117). -/
theorem headerSpace_completion (hp : s.phase = .headerSpace) (ha : s.drvAnswers = .ok :: rest) :
    Result.ofDefault (completeCurrent s.toMachineState) =
      .next { s with drvAnswers := rest, drvChan := none, pend := false,
                     phase := if s.ops.nbytes.toNat = 0 then .gap else .bitMark } := by
  rw [completion_of_ok (by simp [hp]) ha, nextPosition_of_headerSpace (s := takeAnswer rest s.toMachineState) hp,
    headerSpaceNext_eq]
  rfl

/-- `BIT_MARK` is followed by `BIT_SPACE` (R118). -/
theorem bitMark_completion (hp : s.phase = .bitMark) (ha : s.drvAnswers = .ok :: rest) :
    Result.ofDefault (completeCurrent s.toMachineState) =
      .next { s with drvAnswers := rest, drvChan := none, pend := false, phase := .bitSpace } := by
  rw [completion_of_ok (by simp [hp]) ha, nextPosition_of_bitMark (s := takeAnswer rest s.toMachineState) hp]
  rfl

/-- `BIT_SPACE` is followed by the next bit, or by `GAP` with `BITIDX` kept (R119). -/
theorem bitSpace_completion (hp : s.phase = .bitSpace) (hbit : s.bitidx.toNat < 8 * s.ops.nbytes.toNat)
    (ha : s.drvAnswers = .ok :: rest) : Result.ofDefault (completeCurrent s.toMachineState) =
      .next (if s.bitidx.toNat + 1 < 8 * s.ops.nbytes.toNat then
          { s with drvAnswers := rest, drvChan := none, pend := false, bitidx := s.bitidx + 1, phase := .bitMark }
        else
          { s with drvAnswers := rest, drvChan := none, pend := false, phase := .gap }) := by
  rw [completion_of_ok (by simp [hp]) ha, nextPosition_of_bitSpace (s := takeAnswer rest s.toMachineState) hp,
    bitSpaceNext_eq (s := takeAnswer rest s.toMachineState) hbit, apply_ite State.mk]
  rfl

/-- `GAP` is followed by the next iteration, or by the end of the call (R120). -/
theorem gap_completion (hp : s.phase = .gap) (ha : s.drvAnswers = .ok :: rest) :
    Result.ofDefault (completeCurrent s.toMachineState) =
      .next (if s.iter.toNat < s.ops.repeats.toNat then
          { s with drvAnswers := rest, drvChan := none, pend := false, iter := s.iter + 1, bitidx := 0,
                   phase := .headerMark }
        else
          { s with drvAnswers := rest, drvChan := none, pend := false, phase := .idle,
                   hostWait := false, responses := s.responses ++ [.none] }) := by
  rw [completion_of_ok (by simp [hp]) ha, nextPosition_of_gap (s := takeAnswer rest s.toMachineState) hp, gapNext_eq,
    apply_ite State.mk]
  rfl

/-- Settles O13: with nothing in flight the mux's request, with a request in flight the phase's completion. -/
theorem headerMarkIssuesThenCompletes : Obligations.HeaderMarkIssuesThenCompletes := by
  intro s hp
  have hi : phaseInstr s.phase = some .headerMark := by rw [hp]; rfl
  refine ⟨fun hb => exec_issue hi hb (timingMux_of_headerMark hp), fun rest hb ha => ?_, fun rest hb ha => ?_⟩
  · rw [exec_completes hi hb, headerMark_completion hp ha]
  · rw [exec_completes hi hb, completion_of_fault (by simp [hp]) ha]

/-- Settles O14: the same of `HEADER_SPACE`. -/
theorem headerSpaceIssuesThenCompletes : Obligations.HeaderSpaceIssuesThenCompletes := by
  intro s hp
  have hi : phaseInstr s.phase = some .headerSpace := by rw [hp]; rfl
  refine ⟨fun hb => exec_issue hi hb (timingMux_of_headerSpace hp), fun rest hb ha => ?_, fun rest hb ha => ?_⟩
  · rw [exec_completes hi hb, headerSpace_completion hp ha]
  · rw [exec_completes hi hb, completion_of_fault (by simp [hp]) ha]

/-- Settles O15: the same of `BIT_MARK`, whose request does not read the payload. -/
theorem bitMarkIssuesThenCompletes : Obligations.BitMarkIssuesThenCompletes := by
  intro s hp
  have hi : phaseInstr s.phase = some .bitMark := by rw [hp]; rfl
  refine ⟨fun hb => exec_issue hi hb (timingMux_of_bitMark hp), fun rest hb ha => ?_, fun rest hb ha => ?_⟩
  · rw [exec_completes hi hb, bitMark_completion hp ha]
  · rw [exec_completes hi hb, completion_of_fault (by simp [hp]) ha]

/-- Settles O16: the current bit is the one emitted in position `BITIDX mod 8` of byte `BITIDX div 8`. -/
theorem bitSpaceIssuesThenCompletes : Obligations.BitSpaceIssuesThenCompletes := by
  intro s hp
  have hi : phaseInstr s.phase = some .bitSpace := by rw [hp]; rfl
  refine ⟨fun b hb hr q hq => ?_, fun rest hb hbit ha => ?_, fun rest hb ha => ?_⟩
  · rw [← apply_ite b.getLsbD, ← emittedPlace] at hq
    subst hq
    exact exec_issue hi hb ((timingMux_of_bitSpace hp).trans (currentBitSpaceReq_of_bit (payloadBit_of_read hr)))
  · rw [exec_completes hi hb, bitSpace_completion hp hbit ha]
  · rw [exec_completes hi hb, completion_of_fault (by simp [hp]) ha]

/-- Settles O17: the same of `GAP`, with the next iteration or the end of the call. -/
theorem gapIssuesThenCompletes : Obligations.GapIssuesThenCompletes := by
  intro s hp
  have hi : phaseInstr s.phase = some .gap := by rw [hp]; rfl
  refine ⟨fun hb => exec_issue hi hb (timingMux_of_gap hp), fun rest hb ha => ?_, fun rest hb ha => ?_⟩
  · rw [exec_completes hi hb, gap_completion hp ha]
  · rw [exec_completes hi hb, completion_of_fault (by simp [hp]) ha]

/-- The operation of a request that is in flight is the current phase's completion step (R143). -/
theorem exec_request_of_flight {q : Request Config.default} (hb : s.pend = true) (hd : s.drvChan = some q) :
    exec (requestInstr q) s = Result.ofDefault (completeCurrent s.toMachineState) := by
  rw [← carryOut_of_flight hb hd]
  cases q <;> rfl

/-- In flight, a request's operation and the current phase's operation are one (R143). -/
theorem exec_request_eq_phase {q : Request Config.default} (hb : s.pend = true) (hd : s.drvChan = some q)
    (hi : decode (.phase s.phase.code) = .ok i) : exec (requestInstr q) s = exec i s := by
  rw [exec_request_of_flight hb hd, exec_completes ((decode_phase_eq_ok_iff s.phase i).mp hi) hb]

/-- Settles O18: a mark in flight is the current phase's completion. -/
theorem markAnsweredCompletesPhase : Obligations.MarkAnsweredCompletesPhase := by
  intro d f c s hb hd
  have hexec : exec (.mark d f c) s = Result.ofDefault (completeCurrent s.toMachineState) := exec_request_of_flight hb hd
  refine ⟨congrArg _ hd, fun i => exec_request_eq_phase hb hd, fun rest hp ha => ?_, fun rest hp ha => ?_,
    fun rest hs ha => ?_⟩
  · rw [hexec, headerMark_completion hp ha]
  · rw [hexec, bitMark_completion hp ha]
  · rw [hexec, completion_of_fault hs ha]

/-- Settles O19: a space in flight is the current phase's completion. -/
theorem spaceAnsweredCompletesPhase : Obligations.SpaceAnsweredCompletesPhase := by
  intro d s hb hd
  have hexec : exec (.space d) s = Result.ofDefault (completeCurrent s.toMachineState) := exec_request_of_flight hb hd
  refine ⟨congrArg _ hd, fun i => exec_request_eq_phase hb hd, fun rest hp ha => ?_, fun rest hp hbit ha => ?_,
    fun rest hp ha => ?_, fun rest hs ha => ?_⟩
  · rw [hexec, headerSpace_completion hp ha]
  · rw [hexec, bitSpace_completion hp hbit ha]
  · rw [hexec, gap_completion hp ha]
  · rw [hexec, completion_of_fault hs ha]

/-- A phase operation whose code is not in `PHASE` is refused (R73, R114). -/
theorem exec_of_not_selected (hi : phaseInstr p = some i) (hp : s.phase ≠ p) : exec i s = .refused .phaseNotSelected := by
  rw [exec_phaseInstr hi]
  cases p with
  | idle => rfl
  | headerMark | headerSpace | bitMark | bitSpace | gap => exact congrArg Result.ofDefault (if_neg hp)

/-- A driver primitive that is not in flight for a running call is refused (R115, R140). -/
theorem exec_request_of_not_in_flight {q : Request Config.default}
    (h : s.pend = false ∨ s.drvChan ≠ some q ∨ s.phase = .idle) :
    exec (requestInstr q) s = .refused .requestNotInFlight := by
  have hcarry : carryOut q s.toMachineState = .refused .requestNotInFlight := by
    rw [carryOut]
    split_ifs with hflight
    · obtain ⟨hb, hd⟩ := hflight
      obtain hb' | hd' | hp := h
      · simp [hb] at hb'
      · exact absurd hd hd'
      · simp only [completeCurrent, hp]
    · rfl
  cases q <;> exact congrArg Result.ofDefault hcarry

/-- Settles O20: what is not selected, and what is not in flight. -/
theorem operationsNotEnabledAreRefused : Obligations.OperationsNotEnabledAreRefused := by
  refine ⟨fun s i h => ?_, fun s d f c => exec_request_of_not_in_flight (q := .mark d f c),
    fun s d => exec_request_of_not_in_flight (q := .space d)⟩
  obtain ⟨rfl, hp⟩ | ⟨rfl, hp⟩ | ⟨rfl, hp⟩ | ⟨rfl, hp⟩ | ⟨rfl, hp⟩ := h
  · exact exec_of_not_selected (p := .headerMark) rfl hp
  · exact exec_of_not_selected (p := .headerSpace) rfl hp
  · exact exec_of_not_selected (p := .bitMark) rfl hp
  · exact exec_of_not_selected (p := .bitSpace) rfl hp
  · exact exec_of_not_selected (p := .gap) rfl hp

/-- A phase operation faults exactly where its issue step has no request (R114, 20_memory.md R55). -/
theorem phaseOperation_eq_fault_iff {cfg : Config} {req : Option (Request cfg)} {nxt : MachineState cfg → MachineState cfg}
    {s : MachineState cfg} (e : Fault) : phaseOperation p req nxt s = .fault e ↔
      s.phase = p ∧ s.pend = false ∧ req = none := by
  cases e
  unfold phaseOperation
  split_ifs with hp hb
  · simp [hb]
  · cases req <;> simp [hp, hb]
  · simp [hp]

theorem completeCurrent_ne_fault {cfg : Config} (s : MachineState cfg) (e : Fault) : completeCurrent s ≠ .fault e := by
  unfold completeCurrent
  split <;> exact nofun

theorem carryOut_ne_fault {cfg : Config} (q : Request cfg) (s : MachineState cfg) (e : Fault) : carryOut q s ≠ .fault e := by
  rw [carryOut]
  split_ifs
  · exact completeCurrent_ne_fault s e
  · exact nofun

theorem transmit_ne_fault {cfg : Config} (d : Descriptor cfg) (s : MachineState cfg) (e : Fault) :
    transmit cfg d s ≠ .fault e := by
  rw [transmit]
  split_ifs <;> exact nofun

/-- Only `BIT_SPACE` has an issue step that can lack its request (R113). -/
theorem eq_bitSpace_of_exec_fault {e : Fault} (h : exec i s = .fault e) : i = .bitSpace := by
  have hissue (p : Phase) (q : Request Config.default) (nxt : MachineState Config.default → MachineState Config.default) :
      ¬ Result.ofDefault (phaseOperation p (some q) nxt s.toMachineState) = .fault e := by
    rw [ofDefault_eq_fault_iff, phaseOperation_eq_fault_iff]
    simp
  cases i with
  | transmit d => exact absurd ((ofDefault_eq_fault_iff _ _).mp h) (transmit_ne_fault d _ e)
  | headerMark => exact absurd h (hissue _ _ _)
  | headerSpace => exact absurd h (hissue _ _ _)
  | bitMark => exact absurd h (hissue _ _ _)
  | bitSpace => rfl
  | gap => exact absurd h (hissue _ _ _)
  | mark d f c => exact absurd ((ofDefault_eq_fault_iff _ _).mp h) (carryOut_ne_fault (.mark d f c) _ e)
  | space d => exact absurd ((ofDefault_eq_fault_iff _ _).mp h) (carryOut_ne_fault (.space d) _ e)

/-- Settles O21: the request of `BIT_SPACE` is missing exactly for a byte at or beyond `plen`. -/
theorem underrunIsTheOnlyFault : Obligations.UnderrunIsTheOnlyFault := by
  refine ⟨fun s hm => ?_, fun i s e => eq_bitSpace_of_exec_fault⟩
  have hexec : exec .bitSpace s = .fault .payloadUnderrun ↔
      s.phase = .bitSpace ∧ s.pend = false ∧ currentBitSpaceReq s.toMachineState = none :=
    (ofDefault_eq_fault_iff _ _).trans (phaseOperation_eq_fault_iff _)
  rw [hexec, currentBitSpaceReq_eq_none_iff, read_eq_none_iff hm]
  rfl

end Sys2Proof.Machine
end
